-- ==== Sys2Proof/Word.lean ====
section
/-! DEFINITION. The word types of the block: bytes, 16-bit words, 12-bit address fields and register indices
(rules R10, R21, R24, R25, R91, R92). -/

namespace Sys2Proof

/-- An 8-bit unsigned value: a general register, a timer or a byte of memory (R21, R32, R33, R61). -/
abbrev Byte := BitVec 8

/-- A 16-bit unsigned value: an opcode, `I`, `pc` or a return address (R24, R25, R28, R91). -/
abbrev Word := BitVec 16

/-- The 12-bit field `nnn` of an opcode (R92). -/
abbrev Addr12 := BitVec 12

/-- The index of a general register or of a key, and the row count of `Dxyn`: a value 0 to 15 (R21, R37, R92). -/
abbrev Idx := Fin 16

end Sys2Proof
end

