-- ==== Sys2Proof/Config.lean ====
section
/-! DEFINITION. The configuration record `Cfg` of rule R7, fixed for a session, its default values, and the model's two
free values (the draws of rule R9 that a single state does not fix). -/

namespace Sys2Proof

/-- The compatibility mode of rule R39. -/
inductive SystemMode where
  | chip8
  | chip48
  | superChip
  deriving DecidableEq, Repr

/-- What happens to sprite rows below the bottom edge (R197). -/
inductive VerticalEdge where
  | wrap
  | clip
  deriving DecidableEq, Repr

/-- What executing an unknown opcode does (R266). -/
inductive UnknownOpcodePolicy where
  | halt
  | skip
  deriving DecidableEq, Repr

/-- The configuration record of rule R7. `soundConfig` belongs to the tone collaborator and is left out (R5, R7). The three
rates are data that no step reads (R318). The map of mode-independent flags is a list of (feature number, flag) pairs (R44). -/
structure Config where
  memorySize : Nat
  stackSize : Nat
  programStartAddress : Word
  interpreterStartAddress : Word
  numberOfGeneralPurposeRegisters : Nat
  systemMode : SystemMode
  modeIndependentFlags : List (Nat × Bool)
  displayWidth : Nat
  displayHeight : Nat
  verticalEdge : VerticalEdge
  unknownOpcodePolicy : UnknownOpcodePolicy
  fontBaseAddress : Word
  cpuSpeed : Nat
  timerSpeed : Nat
  displayRefreshRate : Nat
  deriving DecidableEq, Repr

/-- The defaults of rule R7. DESIGN CHOICE (log entries 1 and 2): R7 gives no default for `systemMode`,
`interpreterStartAddress` and `cpuSpeed`; no statement rests on the values named here. -/
def Config.default : Config where
  memorySize := 4096
  stackSize := 16
  programStartAddress := 0x200
  interpreterStartAddress := 0
  numberOfGeneralPurposeRegisters := 16
  systemMode := .chip8
  modeIndependentFlags := []
  displayWidth := 64
  displayHeight := 32
  verticalEdge := .wrap
  unknownOpcodePolicy := .halt
  fontBaseAddress := 0
  cpuSpeed := 500
  timerSpeed := 60
  displayRefreshRate := 30

/-- The free value of rule R158: the byte that the n-th draw of the session gives `Cxkk`. It has no body, so a theorem holds
whatever the oracle answers (log entry 5). -/
opaque Config.randomByte : Nat → Byte

/-- The free value of rule R242: which of the active keys the n-th draw of the session picks, as a number taken modulo the
count of active keys (log entry 6). -/
opaque Config.keyChoice : Nat → Nat

end Sys2Proof
end

