-- ==== Sys2Proof/Syntax.lean ====
section
/-! DEFINITION. The 35 instructions of rule R104, one constructor for each row of spec/opcode_table.json, in the table's
order. Operands are the fields of rule R92, already pulled out of the word: `x`, `y`, `n` as indices 0 to 15, `kk` as a byte,
`nnn` as a 12-bit address. -/

namespace Sys2Proof

inductive Instr where
  /-- `0nnn` SYS addr (R121) -/
  | sys (nnn : Addr12)
  /-- `00E0` CLS (R192) -/
  | cls
  /-- `00EE` RET (R122) -/
  | ret
  /-- `1nnn` JP addr (R123) -/
  | jp (nnn : Addr12)
  /-- `2nnn` CALL addr (R124) -/
  | call (nnn : Addr12)
  /-- `3xkk` SE Vx, byte (R172) -/
  | seByte (x : Idx) (kk : Byte)
  /-- `4xkk` SNE Vx, byte (R173) -/
  | sneByte (x : Idx) (kk : Byte)
  /-- `5xy0` SE Vx, Vy (R174) -/
  | seReg (x y : Idx)
  /-- `6xkk` LD Vx, byte (R141) -/
  | ldByte (x : Idx) (kk : Byte)
  /-- `7xkk` ADD Vx, byte (R142) -/
  | addByte (x : Idx) (kk : Byte)
  /-- `8xy0` LD Vx, Vy (R143) -/
  | ldReg (x y : Idx)
  /-- `8xy1` OR Vx, Vy (R144) -/
  | orReg (x y : Idx)
  /-- `8xy2` AND Vx, Vy (R145) -/
  | andReg (x y : Idx)
  /-- `8xy3` XOR Vx, Vy (R146) -/
  | xorReg (x y : Idx)
  /-- `8xy4` ADD Vx, Vy (R147) -/
  | addReg (x y : Idx)
  /-- `8xy5` SUB Vx, Vy (R148) -/
  | subReg (x y : Idx)
  /-- `8xy6` SHR Vx, Vy (R149) -/
  | shr (x y : Idx)
  /-- `8xy7` SUBN Vx, Vy (R150) -/
  | subn (x y : Idx)
  /-- `8xyE` SHL Vx, Vy (R151) -/
  | shl (x y : Idx)
  /-- `9xy0` SNE Vx, Vy (R175) -/
  | sneReg (x y : Idx)
  /-- `Annn` LD I, addr (R221) -/
  | ldI (nnn : Addr12)
  /-- `Bnnn` JP V0, addr (R125) -/
  | jpV0 (nnn : Addr12)
  /-- `Cxkk` RND Vx, byte (R158) -/
  | rnd (x : Idx) (kk : Byte)
  /-- `Dxyn` DRW Vx, Vy, nibble (R193) -/
  | drw (x y n : Idx)
  /-- `Ex9E` SKP Vx (R176) -/
  | skp (x : Idx)
  /-- `ExA1` SKNP Vx (R177) -/
  | sknp (x : Idx)
  /-- `Fx07` LD Vx, DT (R241) -/
  | ldVxDT (x : Idx)
  /-- `Fx0A` LD Vx, K (R242) -/
  | ldVxK (x : Idx)
  /-- `Fx15` LD DT, Vx (R243) -/
  | ldDTVx (x : Idx)
  /-- `Fx18` LD ST, Vx (R244) -/
  | ldSTVx (x : Idx)
  /-- `Fx1E` ADD I, Vx (R222) -/
  | addIVx (x : Idx)
  /-- `Fx29` LD F, Vx (R223) -/
  | ldFVx (x : Idx)
  /-- `Fx33` LD B, Vx (R224) -/
  | ldBVx (x : Idx)
  /-- `Fx55` LD [I], Vx (R225) -/
  | storeRegs (x : Idx)
  /-- `Fx65` LD Vx, [I] (R226) -/
  | loadRegs (x : Idx)
  deriving DecidableEq, Repr

end Sys2Proof
end

