-- ==== Sys2Proof/WellFormed.lean ====
section
/-! DEFINITION. Which instruction terms some opcode stands for. The operand types already bound every field (R92, R106); two
checks are left. `SYS` has no word of its own at 0x0E0 and 0x0EE, whose words are CLS and RET (R96, R104), and `DRW` with a
row count of 0 has no word in SUPER_CHIP (R108). -/

namespace Sys2Proof

/-- The term is what some opcode decodes to in the given mode. -/
def Instr.wellFormed (mode : SystemMode) : Instr → Bool
  | .sys nnn => decide (nnn ≠ 0x0E0) && decide (nnn ≠ 0x0EE)
  | .cls => true
  | .ret => true
  | .jp _ => true
  | .call _ => true
  | .seByte _ _ => true
  | .sneByte _ _ => true
  | .seReg _ _ => true
  | .ldByte _ _ => true
  | .addByte _ _ => true
  | .ldReg _ _ => true
  | .orReg _ _ => true
  | .andReg _ _ => true
  | .xorReg _ _ => true
  | .addReg _ _ => true
  | .subReg _ _ => true
  | .shr _ _ => true
  | .subn _ _ => true
  | .shl _ _ => true
  | .sneReg _ _ => true
  | .ldI _ => true
  | .jpV0 _ => true
  | .rnd _ _ => true
  | .drw _ _ n => decide (n ≠ 0) || decide (mode ≠ .superChip)
  | .skp _ => true
  | .sknp _ => true
  | .ldVxDT _ => true
  | .ldVxK _ => true
  | .ldDTVx _ => true
  | .ldSTVx _ => true
  | .addIVx _ => true
  | .ldFVx _ => true
  | .ldBVx _ => true
  | .storeRegs _ => true
  | .loadRegs _ => true

end Sys2Proof
end

