-- ==== Sys2Proof/Decode.lean ====
section
/-! DEFINITION. Decoding (rules R91 to R102, R108) and, after it, encoding (rules R104 to R107), the
assembler's included. The decoder is total on words and on byte lists and rejects by name. -/

namespace Sys2Proof

/-! ### The fields of an opcode (R92) -/

/-- A nibble as an index 0 to 15. -/
def idxOfNibble (b : BitVec 4) : Idx := ⟨b.toNat, b.isLt⟩

/-- An index 0 to 15 as a nibble. -/
def nibbleOfIdx (i : Idx) : BitVec 4 := BitVec.ofNat 4 i.val

/-- The selector `op[15:12]`. -/
def fieldS (op : Word) : BitVec 4 := op.extractLsb' 12 4

/-- The field `x = op[11:8]`. -/
def fieldX (op : Word) : Idx := idxOfNibble (op.extractLsb' 8 4)

/-- The field `y = op[7:4]`. -/
def fieldY (op : Word) : Idx := idxOfNibble (op.extractLsb' 4 4)

/-- The field `n = op[3:0]`. -/
def fieldN (op : Word) : Idx := idxOfNibble (op.extractLsb' 0 4)

/-- The field `kk = op[7:0]`. -/
def fieldKK (op : Word) : Byte := op.extractLsb' 0 8

/-- The field `nnn = op[11:0]`. -/
def fieldNNN (op : Word) : Addr12 := op.extractLsb' 0 12

/-! ### The decoder -/

/-- The rows of rule R102's table that reject a word: the reserved sub-opcodes of groups 5, 8, 9, E and F, and `Dxy0` in
SUPER_CHIP. (The table's other row, `0nnn`, decodes to `Instr.sys`, whose meaning is R121's: log entry 20.) -/
inductive Reserved where
  | group5
  | group8
  | group9
  | dxy0SuperChip
  | groupE
  | groupF
  deriving DecidableEq, Repr

/-- Why nothing was decoded: `Unknown(op)` of rule R95 with the row of R102 that says so, or fewer than two bytes. -/
inductive DecodeError where
  | unknown (why : Reserved) (op : Word)
  | truncated
  deriving DecidableEq, Repr

/-- Group 0 (R96). -/
def decode0 (op : Word) : Except DecodeError Instr :=
  if op = 0x00E0 then .ok .cls
  else if op = 0x00EE then .ok .ret
  else .ok (.sys (fieldNNN op))

/-- Group 5 (R98). -/
def decode5 (op : Word) : Except DecodeError Instr :=
  if fieldN op = 0 then .ok (.seReg (fieldX op) (fieldY op)) else .error (.unknown .group5 op)

/-- Group 8 (R97). -/
def decode8 (op : Word) : Except DecodeError Instr :=
  match (fieldN op).val with
  | 0 => .ok (.ldReg (fieldX op) (fieldY op))
  | 1 => .ok (.orReg (fieldX op) (fieldY op))
  | 2 => .ok (.andReg (fieldX op) (fieldY op))
  | 3 => .ok (.xorReg (fieldX op) (fieldY op))
  | 4 => .ok (.addReg (fieldX op) (fieldY op))
  | 5 => .ok (.subReg (fieldX op) (fieldY op))
  | 6 => .ok (.shr (fieldX op) (fieldY op))
  | 7 => .ok (.subn (fieldX op) (fieldY op))
  | 0xE => .ok (.shl (fieldX op) (fieldY op))
  | _ => .error (.unknown .group8 op)

/-- Group 9 (R98). -/
def decode9 (op : Word) : Except DecodeError Instr :=
  if fieldN op = 0 then .ok (.sneReg (fieldX op) (fieldY op)) else .error (.unknown .group9 op)

/-- Group D, the one group that looks at the mode (R108). -/
def decodeD (op : Word) (mode : SystemMode) : Except DecodeError Instr :=
  if fieldN op = 0 ∧ mode = .superChip then .error (.unknown .dxy0SuperChip op)
  else .ok (.drw (fieldX op) (fieldY op) (fieldN op))

/-- Group E (R98). -/
def decodeE (op : Word) : Except DecodeError Instr :=
  match (fieldKK op).toNat with
  | 0x9E => .ok (.skp (fieldX op))
  | 0xA1 => .ok (.sknp (fieldX op))
  | _ => .error (.unknown .groupE op)

/-- Group F (R99). -/
def decodeF (op : Word) : Except DecodeError Instr :=
  match (fieldKK op).toNat with
  | 0x07 => .ok (.ldVxDT (fieldX op))
  | 0x0A => .ok (.ldVxK (fieldX op))
  | 0x15 => .ok (.ldDTVx (fieldX op))
  | 0x18 => .ok (.ldSTVx (fieldX op))
  | 0x1E => .ok (.addIVx (fieldX op))
  | 0x29 => .ok (.ldFVx (fieldX op))
  | 0x33 => .ok (.ldBVx (fieldX op))
  | 0x55 => .ok (.storeRegs (fieldX op))
  | 0x65 => .ok (.loadRegs (fieldX op))
  | _ => .error (.unknown .groupF op)

/-- The decode function `decode(op, mode)` of rule R95: total, switching on the selector first. -/
def decode (op : Word) (mode : SystemMode) : Except DecodeError Instr :=
  match (fieldS op).toNat with
  | 0x0 => decode0 op
  | 0x1 => .ok (.jp (fieldNNN op))
  | 0x2 => .ok (.call (fieldNNN op))
  | 0x3 => .ok (.seByte (fieldX op) (fieldKK op))
  | 0x4 => .ok (.sneByte (fieldX op) (fieldKK op))
  | 0x5 => decode5 op
  | 0x6 => .ok (.ldByte (fieldX op) (fieldKK op))
  | 0x7 => .ok (.addByte (fieldX op) (fieldKK op))
  | 0x8 => decode8 op
  | 0x9 => decode9 op
  | 0xA => .ok (.ldI (fieldNNN op))
  | 0xB => .ok (.jpV0 (fieldNNN op))
  | 0xC => .ok (.rnd (fieldX op) (fieldKK op))
  | 0xD => decodeD op mode
  | 0xE => decodeE op
  | _ => decodeF op

/-- The opcode that two consecutive bytes make, the first one the high byte (R67, R91). -/
def wordOfBytes (hi lo : Byte) : Word := hi ++ lo

/-- The high byte of an opcode, stored first (R67). -/
def highByte (op : Word) : Byte := op.extractLsb' 8 8

/-- The low byte of an opcode, stored second (R67). -/
def lowByte (op : Word) : Byte := op.extractLsb' 0 8

/-- Decoding from bytes: every instruction is two bytes long (R91, R109). The rest of the list is handed back. -/
def decodeBytes (mode : SystemMode) : List Byte → Except DecodeError (Instr × List Byte)
  | hi :: lo :: rest => (decode (wordOfBytes hi lo) mode).map fun i => (i, rest)
  | _ => .error .truncated

/-! ### The encoder (R104, R106) -/

/-- A word of the form `s nnn`. -/
def wordNNN (s : BitVec 4) (nnn : Addr12) : Word := s ++ nnn

/-- A word of the form `s x kk`. -/
def wordXKK (s : BitVec 4) (x : Idx) (kk : Byte) : Word := s ++ nibbleOfIdx x ++ kk

/-- A word of the form `s x y n`. -/
def wordXYN (s : BitVec 4) (x y n : Idx) : Word := s ++ nibbleOfIdx x ++ nibbleOfIdx y ++ nibbleOfIdx n

/-- The word of an instruction, by its pattern in rule R104's table. -/
def encode : Instr → Word
  | .sys nnn => wordNNN 0x0 nnn
  | .cls => 0x00E0
  | .ret => 0x00EE
  | .jp nnn => wordNNN 0x1 nnn
  | .call nnn => wordNNN 0x2 nnn
  | .seByte x kk => wordXKK 0x3 x kk
  | .sneByte x kk => wordXKK 0x4 x kk
  | .seReg x y => wordXYN 0x5 x y 0x0
  | .ldByte x kk => wordXKK 0x6 x kk
  | .addByte x kk => wordXKK 0x7 x kk
  | .ldReg x y => wordXYN 0x8 x y 0x0
  | .orReg x y => wordXYN 0x8 x y 0x1
  | .andReg x y => wordXYN 0x8 x y 0x2
  | .xorReg x y => wordXYN 0x8 x y 0x3
  | .addReg x y => wordXYN 0x8 x y 0x4
  | .subReg x y => wordXYN 0x8 x y 0x5
  | .shr x y => wordXYN 0x8 x y 0x6
  | .subn x y => wordXYN 0x8 x y 0x7
  | .shl x y => wordXYN 0x8 x y 0xE
  | .sneReg x y => wordXYN 0x9 x y 0x0
  | .ldI nnn => wordNNN 0xA nnn
  | .jpV0 nnn => wordNNN 0xB nnn
  | .rnd x kk => wordXKK 0xC x kk
  | .drw x y n => wordXYN 0xD x y n
  | .skp x => wordXKK 0xE x 0x9E
  | .sknp x => wordXKK 0xE x 0xA1
  | .ldVxDT x => wordXKK 0xF x 0x07
  | .ldVxK x => wordXKK 0xF x 0x0A
  | .ldDTVx x => wordXKK 0xF x 0x15
  | .ldSTVx x => wordXKK 0xF x 0x18
  | .addIVx x => wordXKK 0xF x 0x1E
  | .ldFVx x => wordXKK 0xF x 0x29
  | .ldBVx x => wordXKK 0xF x 0x33
  | .storeRegs x => wordXKK 0xF x 0x55
  | .loadRegs x => wordXKK 0xF x 0x65

/-- The two bytes of an instruction as memory holds them. -/
def encodeBytes (i : Instr) : List Byte := [highByte (encode i), lowByte (encode i)]

/-! ### The assembler (R94, R104 to R107) -/

/-- An operand as it is written (R94, R105). -/
inductive AsmOperand where
  /-- `V0` to `VF` -/
  | reg (x : Idx)
  /-- a hex literal -/
  | lit (v : Nat)
  /-- `I` -/
  | index
  /-- `[I]` -/
  | atIndex
  /-- `DT` -/
  | dt
  /-- `ST` -/
  | st
  /-- `K` -/
  | key
  /-- `F` -/
  | font
  /-- `B` -/
  | bcd
  deriving DecidableEq, Repr

/-- The operand check of rule R106: the operand as a field of `width` bits, or nothing (an assembly error) where it does not
fit. -/
def assembleOperand (width v : Nat) : Option (BitVec width) :=
  if v < 2 ^ width then some (BitVec.ofNat width v) else none

/-- The operand forms of LD. -/
def assembleLd : List AsmOperand → Option Instr
  | [.reg x, .lit v] => (assembleOperand 8 v).map (.ldByte x)
  | [.reg x, .reg y] => some (.ldReg x y)
  | [.index, .lit v] => (assembleOperand 12 v).map .ldI
  | [.reg x, .dt] => some (.ldVxDT x)
  | [.reg x, .key] => some (.ldVxK x)
  | [.dt, .reg x] => some (.ldDTVx x)
  | [.st, .reg x] => some (.ldSTVx x)
  | [.font, .reg x] => some (.ldFVx x)
  | [.bcd, .reg x] => some (.ldBVx x)
  | [.atIndex, .reg x] => some (.storeRegs x)
  | [.reg x, .atIndex] => some (.loadRegs x)
  | _ => none

/-- The operand forms of ADD. -/
def assembleAdd : List AsmOperand → Option Instr
  | [.reg x, .lit v] => (assembleOperand 8 v).map (.addByte x)
  | [.reg x, .reg y] => some (.addReg x y)
  | [.index, .reg x] => some (.addIVx x)
  | _ => none

/-- The operand forms of SE and SNE, given the meaning of each form. -/
def assembleCompare (byteForm : Idx → Byte → Instr) (regForm : Idx → Idx → Instr) : List AsmOperand → Option Instr
  | [.reg x, .lit v] => (assembleOperand 8 v).map (byteForm x)
  | [.reg x, .reg y] => some (regForm x y)
  | _ => none

/-- The operand forms of JP: the register of the indexed form is `V0`. -/
def assembleJp : List AsmOperand → Option Instr
  | [.lit v] => (assembleOperand 12 v).map .jp
  | [.reg x, .lit v] => if x = 0 then (assembleOperand 12 v).map .jpV0 else none
  | _ => none

/-- Two registers. -/
def assembleTwoRegs (form : Idx → Idx → Instr) : List AsmOperand → Option Instr
  | [.reg x, .reg y] => some (form x y)
  | _ => none

/-- SHR and SHL: the second register may be omitted and is then encoded as y = 0 (R105). -/
def assembleShift (form : Idx → Idx → Instr) : List AsmOperand → Option Instr
  | [.reg x, .reg y] => some (form x y)
  | [.reg x] => some (form x 0)
  | _ => none

/-- One register. -/
def assembleOneReg (form : Idx → Instr) : List AsmOperand → Option Instr
  | [.reg x] => some (form x)
  | _ => none

/-- One address. -/
def assembleAddr (form : Addr12 → Instr) : List AsmOperand → Option Instr
  | [.lit v] => (assembleOperand 12 v).map form
  | _ => none

/-- A register and a byte. -/
def assembleRegByte (form : Idx → Byte → Instr) : List AsmOperand → Option Instr
  | [.reg x, .lit v] => (assembleOperand 8 v).map (form x)
  | _ => none

/-- DRW's two registers and its row count. -/
def assembleDrw : List AsmOperand → Option Instr
  | [.reg x, .reg y, .lit v] => (assembleOperand 4 v).map fun n => .drw x y (idxOfNibble n)
  | _ => none

/-- No operand. -/
def assembleBare (i : Instr) : List AsmOperand → Option Instr
  | [] => some i
  | _ => none

/-- The instruction of a mnemonic and its operands by the syntax column of R104, or nothing where it is an assembly error. -/
def assemble (mnemonic : String) (ops : List AsmOperand) : Option Instr :=
  match mnemonic with
  | "SYS" => assembleAddr .sys ops
  | "CLS" => assembleBare .cls ops
  | "RET" => assembleBare .ret ops
  | "JP" => assembleJp ops
  | "CALL" => assembleAddr .call ops
  | "SE" => assembleCompare .seByte .seReg ops
  | "SNE" => assembleCompare .sneByte .sneReg ops
  | "LD" => assembleLd ops
  | "ADD" => assembleAdd ops
  | "OR" => assembleTwoRegs .orReg ops
  | "AND" => assembleTwoRegs .andReg ops
  | "XOR" => assembleTwoRegs .xorReg ops
  | "SUB" => assembleTwoRegs .subReg ops
  | "SHR" => assembleShift .shr ops
  | "SUBN" => assembleTwoRegs .subn ops
  | "SHL" => assembleShift .shl ops
  | "RND" => assembleRegByte .rnd ops
  | "DRW" => assembleDrw ops
  | "SKP" => assembleOneReg .skp ops
  | "SKNP" => assembleOneReg .sknp ops
  | _ => none

/-- How an instruction is written: its mnemonic and its operands, with no operand omitted (R104, R105). -/
def asmForm : Instr → String × List AsmOperand
  | .sys nnn => ("SYS", [.lit nnn.toNat])
  | .cls => ("CLS", [])
  | .ret => ("RET", [])
  | .jp nnn => ("JP", [.lit nnn.toNat])
  | .call nnn => ("CALL", [.lit nnn.toNat])
  | .seByte x kk => ("SE", [.reg x, .lit kk.toNat])
  | .sneByte x kk => ("SNE", [.reg x, .lit kk.toNat])
  | .seReg x y => ("SE", [.reg x, .reg y])
  | .ldByte x kk => ("LD", [.reg x, .lit kk.toNat])
  | .addByte x kk => ("ADD", [.reg x, .lit kk.toNat])
  | .ldReg x y => ("LD", [.reg x, .reg y])
  | .orReg x y => ("OR", [.reg x, .reg y])
  | .andReg x y => ("AND", [.reg x, .reg y])
  | .xorReg x y => ("XOR", [.reg x, .reg y])
  | .addReg x y => ("ADD", [.reg x, .reg y])
  | .subReg x y => ("SUB", [.reg x, .reg y])
  | .shr x y => ("SHR", [.reg x, .reg y])
  | .subn x y => ("SUBN", [.reg x, .reg y])
  | .shl x y => ("SHL", [.reg x, .reg y])
  | .sneReg x y => ("SNE", [.reg x, .reg y])
  | .ldI nnn => ("LD", [.index, .lit nnn.toNat])
  | .jpV0 nnn => ("JP", [.reg 0, .lit nnn.toNat])
  | .rnd x kk => ("RND", [.reg x, .lit kk.toNat])
  | .drw x y n => ("DRW", [.reg x, .reg y, .lit n.val])
  | .skp x => ("SKP", [.reg x])
  | .sknp x => ("SKNP", [.reg x])
  | .ldVxDT x => ("LD", [.reg x, .dt])
  | .ldVxK x => ("LD", [.reg x, .key])
  | .ldDTVx x => ("LD", [.dt, .reg x])
  | .ldSTVx x => ("LD", [.st, .reg x])
  | .addIVx x => ("ADD", [.index, .reg x])
  | .ldFVx x => ("LD", [.font, .reg x])
  | .ldBVx x => ("LD", [.bcd, .reg x])
  | .storeRegs x => ("LD", [.atIndex, .reg x])
  | .loadRegs x => ("LD", [.reg x, .atIndex])

/-- The value of a hex digit. -/
def hexDigit (c : Char) : Option Nat :=
  if '0' ≤ c ∧ c ≤ '9' then some (c.toNat - 48)
  else if 'A' ≤ c ∧ c ≤ 'F' then some (c.toNat - 55)
  else if 'a' ≤ c ∧ c ≤ 'f' then some (c.toNat - 87)
  else none

/-- The number that hex digits write, after a number already read. -/
def hexFrom (acc : Nat) : List Char → Option Nat
  | [] => some acc
  | c :: cs => (hexDigit c).bind fun d => hexFrom (16 * acc + d) cs

/-- A hex number of at least one digit. -/
def hexNumber : List Char → Option Nat
  | [] => none
  | cs => hexFrom 0 cs

/-- An operand as it is written; a literal is written `0x12`, `#12` or `$12` (R105). The letters of the names are upper-case;
that a hex digit, a register's too (`VA` or `Va`), may be upper-case or lower-case is the model's choice (log entry 25). -/
def readOperand : List Char → Option AsmOperand
  | ['V', c] => (hexDigit c).map fun d => .reg (Fin.ofNat 16 d)
  | ['I'] => some .index
  | ['[', 'I', ']'] => some .atIndex
  | ['D', 'T'] => some .dt
  | ['S', 'T'] => some .st
  | ['K'] => some .key
  | ['F'] => some .font
  | ['B'] => some .bcd
  | '0' :: 'x' :: cs => (hexNumber cs).map .lit
  | '#' :: cs => (hexNumber cs).map .lit
  | '$' :: cs => (hexNumber cs).map .lit
  | _ => none

/-- Cut a list of characters at each separator. -/
def cutAt (sep : Char) : List Char → List (List Char)
  | [] => [[]]
  | c :: cs =>
    match cutAt sep cs with
    | [] => [[c]]
    | piece :: pieces => if c = sep then [] :: piece :: pieces else (c :: piece) :: pieces

/-- The operands of a line, spaces dropped. -/
def readOperands (cs : List Char) : Option (List AsmOperand) :=
  match cs.filter fun c => c ≠ ' ' with
  | [] => some []
  | cs => (cutAt ',' cs).mapM readOperand

/-- The bytes of a data directive: each value must fit a byte (R106, R107). -/
def assembleData (ops : List AsmOperand) : Option (List Byte) :=
  ops.mapM fun
    | .lit v => assembleOperand 8 v
    | _ => none

/-- The bytes that one line of assembly stands for: an instruction `MNEMONIC op1, op2, …` (R105) or the data directive `DB` or
`BYTE` (R107). -/
def assembleLine (line : String) : Option (List Byte) :=
  let mnemonic := line.toList.takeWhile fun c => c ≠ ' '
  (readOperands (line.toList.drop mnemonic.length)).bind fun ops =>
    if mnemonic = ['D', 'B'] ∨ mnemonic = ['B', 'Y', 'T', 'E'] then assembleData ops
    else (assemble (String.ofList mnemonic) ops).map encodeBytes

/-- The bytes of a program, line after line, to be loaded at `programStartAddress`. -/
def assembleProgram (lines : List String) : Option (List Byte) := (lines.mapM assembleLine).map List.flatten

/-! ### The table of rule R104 -/

/-- A row's `mask`: the bits its pattern fixes. -/
def tableMask : Instr → Word
  | .cls | .ret => 0xFFFF
  | .seReg _ _ | .ldReg _ _ | .orReg _ _ | .andReg _ _ | .xorReg _ _ | .addReg _ _ | .subReg _ _ | .shr _ _
  | .subn _ _ | .shl _ _ | .sneReg _ _ => 0xF00F
  | .skp _ | .sknp _ | .ldVxDT _ | .ldVxK _ | .ldDTVx _ | .ldSTVx _ | .addIVx _ | .ldFVx _ | .ldBVx _
  | .storeRegs _ | .loadRegs _ => 0xF0FF
  | .sys _ | .jp _ | .call _ | .seByte _ _ | .sneByte _ _ | .ldByte _ _ | .addByte _ _ | .ldI _ | .jpV0 _
  | .rnd _ _ | .drw _ _ _ => 0xF000

/-- A row's `match`: the values of the bits its pattern fixes. -/
def tableMatch : Instr → Word
  | .sys _ => 0x0000
  | .cls => 0x00E0
  | .ret => 0x00EE
  | .jp _ => 0x1000
  | .call _ => 0x2000
  | .seByte _ _ => 0x3000
  | .sneByte _ _ => 0x4000
  | .seReg _ _ => 0x5000
  | .ldByte _ _ => 0x6000
  | .addByte _ _ => 0x7000
  | .ldReg _ _ => 0x8000
  | .orReg _ _ => 0x8001
  | .andReg _ _ => 0x8002
  | .xorReg _ _ => 0x8003
  | .addReg _ _ => 0x8004
  | .subReg _ _ => 0x8005
  | .shr _ _ => 0x8006
  | .subn _ _ => 0x8007
  | .shl _ _ => 0x800E
  | .sneReg _ _ => 0x9000
  | .ldI _ => 0xA000
  | .jpV0 _ => 0xB000
  | .rnd _ _ => 0xC000
  | .drw _ _ _ => 0xD000
  | .skp _ => 0xE09E
  | .sknp _ => 0xE0A1
  | .ldVxDT _ => 0xF007
  | .ldVxK _ => 0xF00A
  | .ldDTVx _ => 0xF015
  | .ldSTVx _ => 0xF018
  | .addIVx _ => 0xF01E
  | .ldFVx _ => 0xF029
  | .ldBVx _ => 0xF033
  | .storeRegs _ => 0xF055
  | .loadRegs _ => 0xF065

/-! ### The host's probe -/

/-- The first 16 bits of an instruction whose bits are `w`, of which the table gives `nbits`: the bits above are 0. -/
def tableWord (nbits w : Nat) : Word := BitVec.ofNat 16 (w % 2 ^ nbits)

/-- What the decoder reads from the instruction whose `nbits` bits are `w`, numbered as spec/opcode_table.json numbers them.
The word is laid out as memory holds it, high byte first, and decoded from those bytes, in the mode that the session after
`State.reset` has (log entry 13). -/
def decodeTableWord (nbits w : Nat) : Option Instr :=
  match decodeBytes Config.default.systemMode [highByte (tableWord nbits w), lowByte (tableWord nbits w)] with
  | .ok (i, _) => some i
  | .error _ => none

end Sys2Proof
end

