-- ==== Sys2Proof/Machine/State.lean ====
section
/-! DEFINITION. The machine state of 10_state.md (the record `S`, the memory `M` and the configuration `Cfg`), the fields the
model adds, the reasons a step can stop, and the state after reset (rules R48, R301 to R311). -/

namespace Sys2Proof.Machine

/-- The operation an `OutOfRange` fault records (R262). -/
inductive AccessOp where
  | fetch
  | read
  | write
  | keyTest
  | romLoad
  deriving DecidableEq, Repr

/-- The faults of rule R262 with the information each records. -/
inductive SessionFault where
  /-- An address or key index out of range, and the operation that met it. -/
  | outOfRange (address : Nat) (op : AccessOp)
  /-- The `pc` of the CALL. -/
  | stackOverflow (pc : Word)
  /-- The `pc` of the RET. -/
  | stackUnderflow (pc : Word)
  /-- The `pc` and the opcode. -/
  | unknownInstruction (pc op : Word)
  deriving DecidableEq, Repr

/-- The session status of rule R38. -/
inductive Status where
  | running
  | halted
  | fatal (f : SessionFault)
  deriving DecidableEq, Repr

/-- One step of one agent (R3, R281 to R285): the CPU, the timer loop, the display loop, or the host setting a key or raising
the halt signal. -/
inductive AgentStep where
  | cpu
  | timer
  | display
  | hostKey (k : Idx) (active : Bool)
  | hostHalt
  deriving DecidableEq, Repr

/-- The pixel grid `fb` of rule R36: rows from the top, each a list of pixels from the left. -/
abbrev Framebuffer := List (List Bool)

/-- The memory `M` of rule R61 as (address, byte) pairs in the canonical form of `Memory.wf`. An unlisted address holds what
session start left there (`resetByte`). -/
abbrev Memory := List Host.Cell

/-- A call the block makes to a collaborator (R288, R289). -/
inductive Output where
  /-- `init(haltSignal)`, at session start. -/
  | displayInit
  /-- `update(snapshot)`, at a display step. -/
  | displayUpdate (snapshot : Framebuffer)
  /-- `halt()`, when the session ends. -/
  | displayHalt
  /-- `start()` of the tone collaborator. -/
  | toneStart
  /-- `stop()` of the tone collaborator. -/
  | toneStop
  deriving DecidableEq, Repr

/-- The whole machine. The fields down to `cfg` are the spec's. `agenda`, `draws` and `outputs` are the model's own: the
agent steps to come (log entry 4), the number of draws taken so far (log entries 5 to 7) and the calls made to the
collaborators so far, newest first (log entry 8). -/
structure State where
  /-- `V0` to `VF` (R21) -/
  v : Vector Byte 16
  /-- the index register `I` (R24) -/
  i : Word
  /-- the program counter (R25) -/
  pc : Word
  /-- the return stack, its top first (R28) -/
  stack : List Word
  /-- the delay timer (R32) -/
  dt : Byte
  /-- the sound timer (R33) -/
  st : Byte
  /-- what the tone collaborator was last told (R34) -/
  toneOn : Bool
  /-- the framebuffer (R36) -/
  fb : Framebuffer
  /-- the collision flag (R35) -/
  collision : Bool
  /-- the key states (R37) -/
  key : Vector Bool 16
  /-- the session status (R38) -/
  status : Status
  /-- the memory (R61) -/
  mem : Memory
  /-- the configuration (R7), which holds the compatibility mode (R39) -/
  cfg : Config
  /-- the model's own: the agent steps to come, the CPU's turn where none is listed -/
  agenda : List AgentStep
  /-- the model's own: how many draws have been taken -/
  draws : Nat
  /-- the model's own: the calls made to the collaborators, newest first -/
  outputs : List Output
  deriving DecidableEq, Repr

/-- Why the machine has no further step. Both say that the session has ended (R38, R261, R285); the state the session ended
in stands in the last `next` outcome. -/
inductive Fault where
  /-- Raised by `step` when `status` is `Fatal(f)`: no agent has a step (R261). Safe: nothing follows. -/
  | sessionFatal (f : SessionFault)
  /-- Raised by `step` when `status` is `Halted`: no agent has a step (R285). Safe: nothing follows. -/
  | sessionHalted
  deriving DecidableEq, Repr

/-- Why the model gives a step no meaning. -/
inductive Refusal where
  /-- Raised by an arm of `exec` whose instruction has no meaning yet. Safe. No arm raises it. -/
  | notModelled (mnemonic : String)
  /-- Raised by `step` and by session start when the configuration is illegal (R8): no step is taken at all. Safe. -/
  | illegalConfiguration
  deriving DecidableEq, Repr

/-- The compatibility mode (R39, R310). -/
def State.mode (s : State) : SystemMode := s.cfg.systemMode

/-- The state that the steps of rule R301 leave for an empty ROM: R302 to R311, with the rendering collaborator's `init`
called (R288). Memory lists nothing, since an unlisted address holds the reset contents, the font included. -/
def State.start (cfg : Config) : State where
  v := Vector.replicate 16 0
  i := 0
  pc := cfg.programStartAddress
  stack := []
  dt := 0
  st := 0
  toneOn := false
  fb := List.replicate cfg.displayHeight (List.replicate cfg.displayWidth false)
  collision := false
  key := Vector.replicate 16 false
  status := .running
  mem := []
  cfg := cfg
  agenda := []
  draws := 0
  outputs := [.displayInit]

/-- The machine right after reset, with the default configuration (R7, R48). -/
def State.reset : State := State.start Config.default

end Sys2Proof.Machine
end

