-- ==== Sys2Proof/Machine/Memory.lean ====
section
/-! DEFINITION. The memory: what session start leaves in it (rules R302, R306), its canonical form, and reading and writing
one byte (rules R61, R64). -/

namespace Sys2Proof.Machine

/-- The 80 bytes of the hex font of rule R306, five for each digit. -/
def fontBytes : List Byte :=
  [0xF0, 0x90, 0x90, 0x90, 0xF0,  0x20, 0x60, 0x20, 0x20, 0x70] ++
  [0xF0, 0x10, 0xF0, 0x80, 0xF0,  0xF0, 0x10, 0xF0, 0x10, 0xF0] ++
  [0x90, 0x90, 0xF0, 0x10, 0x10,  0xF0, 0x80, 0xF0, 0x10, 0xF0] ++
  [0xF0, 0x80, 0xF0, 0x90, 0xF0,  0xF0, 0x10, 0x20, 0x40, 0x40] ++
  [0xF0, 0x90, 0xF0, 0x90, 0xF0,  0xF0, 0x90, 0xF0, 0x10, 0xF0] ++
  [0xF0, 0x90, 0xF0, 0x90, 0x90,  0xE0, 0x90, 0xE0, 0x90, 0xE0] ++
  [0xF0, 0x80, 0x80, 0x80, 0xF0,  0xE0, 0x90, 0x90, 0x90, 0xE0] ++
  [0xF0, 0x80, 0xF0, 0x80, 0xF0,  0xF0, 0x80, 0xF0, 0x80, 0x80]

/-- What an unlisted address holds: the font byte in `[fontBaseAddress, fontBaseAddress + 80)` (R306), 0 elsewhere (R302, log entry 9). -/
def resetByte (cfg : Config) (a : Nat) : Byte :=
  if cfg.fontBaseAddress.toNat ≤ a then fontBytes.getD (a - cfg.fontBaseAddress.toNat) 0 else 0

/-- The byte listed for an address, if there is one. -/
def Memory.lookup : Memory → Nat → Option Byte
  | [], _ => none
  | c :: m, a => if c.1 = a then some c.2 else Memory.lookup m a

/-- The byte at an address, `dflt` giving what an unlisted address holds. -/
def Memory.get (dflt : Nat → Byte) (m : Memory) (a : Nat) : Byte := (m.lookup a).getD (dflt a)

/-- The memory without an entry for `a`. -/
def Memory.erase : Memory → Nat → Memory
  | [], _ => []
  | c :: m, a => if c.1 = a then m else c :: Memory.erase m a

/-- The memory with the entry `(a, b)` put in its place in the rising order. -/
def Memory.insert : Memory → Nat → Byte → Memory
  | [], a, b => [(a, b)]
  | c :: m, a, b =>
    if a < c.1 then (a, b) :: c :: m
    else if c.1 = a then (a, b) :: m
    else c :: Memory.insert m a b

/-- Write a byte and keep the canonical form: writing what an unlisted address holds removes the entry. -/
def Memory.put (dflt : Nat → Byte) (m : Memory) (a : Nat) (b : Byte) : Memory :=
  if b = dflt a then m.erase a else m.insert a b

/-- The canonical form: addresses strictly rising from `lo` and below `size`, and no entry equal to what an unlisted address
holds. -/
def Memory.wfFrom (dflt : Nat → Byte) (size : Nat) : Nat → Memory → Bool
  | _, [] => true
  | lo, c :: m => decide (lo ≤ c.1) && decide (c.1 < size) && decide (c.2 ≠ dflt c.1) && Memory.wfFrom dflt size (c.1 + 1) m

/-- The canonical form of a memory of `size` bytes. -/
def Memory.wf (dflt : Nat → Byte) (size : Nat) (m : Memory) : Bool := Memory.wfFrom dflt size 0 m

/-- The byte the state holds at an address, without a range check. -/
def State.byteAt (s : State) (a : Nat) : Byte := s.mem.get (resetByte s.cfg) a

/-- The state with one byte of memory replaced, without a range check. -/
def State.putByte (a : Nat) (b : Byte) (s : State) : State := { s with mem := s.mem.put (resetByte s.cfg) a b }

/-- Write consecutive bytes, the first at `a`. -/
def Memory.putAll (dflt : Nat → Byte) : Memory → Nat → List Byte → Memory
  | m, _, [] => m
  | m, a, b :: bs => Memory.putAll dflt (m.put dflt a b) (a + 1) bs

/-- The state with consecutive bytes of memory replaced, the first at `a`, without a range check. -/
def State.putBytes (a : Nat) (bs : List Byte) (s : State) : State := { s with mem := s.mem.putAll (resetByte s.cfg) a bs }

end Sys2Proof.Machine
end

