-- ==== Sys2Proof/Machine/Operands.lean ====
section
/-! DEFINITION. Every operand form of rule R94 (registers, the immediate, addresses, block addresses, the decimal digits, the
font sprite) and the compatibility-mode multiplexer (rules R39 to R44). -/

namespace Sys2Proof.Machine

/-- Read `V[x]` (R21, R22). No register is hard-wired. -/
def State.reg (s : State) (x : Idx) : Byte := s.v[x]

/-- Write `V[x]` (R21, R22). -/
def State.setReg (x : Idx) (b : Byte) (s : State) : State := { s with v := s.v.set x b }

/-- A register file with `V[r], V[r+1], …` replaced by the bytes of a list, as far as there are registers. -/
def setAll : Nat → List Byte → Vector Byte 16 → Vector Byte 16
  | _, [], v => v
  | r, b :: bs, v => setAll (r + 1) bs (if h : r < 16 then v.set r b h else v)

/-- Write `V[0], V[1], …` with the bytes of a list (R226). -/
def State.setRegs (bs : List Byte) (s : State) : State := { s with v := setAll 0 bs s.v }

/-- The flag register VF (R23). -/
def flagReg : Idx := 15

/-- The address field zero-extended (R93). -/
def zext16 (nnn : Addr12) : Word := nnn.setWidth 16

/-- `I` plus an offset, computed in the integers (R69, R228). -/
def State.effectiveAddress (s : State) (r : Nat) : Nat := s.i.toNat + r

/-- The registers `V[0..x]` in order (R225). -/
def State.regsUpTo (s : State) (x : Idx) : List Byte := s.v.toList.take (x.val + 1)

/-- The decimal digits of a byte: hundreds, tens, units (R224). -/
def bcdDigits (v : Byte) : List Byte :=
  [BitVec.ofNat 8 (v.toNat / 100), BitVec.ofNat 8 (v.toNat / 10 % 10), BitVec.ofNat 8 (v.toNat % 10)]

/-- The address of the font sprite of the low nibble of `v` (R223, log entry 23). -/
def fontAddress (cfg : Config) (v : Byte) : Word := cfg.fontBaseAddress + BitVec.ofNat 16 (5 * (v.toNat % 16))

/-- The features of rules R40 and R44. -/
inductive Feature where
  | incrementIAfterBlockMemory
  | shiftSourcesVx
  | modeIndependent (number : Nat)
  deriving DecidableEq, Repr

/-- The fixed feature set of a mode (R42, R43). -/
def modeFeatures : SystemMode → List Feature
  | .chip8 => [.incrementIAfterBlockMemory]
  | .chip48 => [.incrementIAfterBlockMemory, .shiftSourcesVx]
  | .superChip => [.shiftSourcesVx]

/-- The flag a map of mode-independent features gives a feature, false where it has no entry (R44). -/
def flagOf : List (Nat × Bool) → Nat → Bool
  | [], _ => false
  | e :: m, n => if e.1 = n then e.2 else flagOf m n

/-- `isEnabled` of rules R41 and R44. -/
def isEnabled (cfg : Config) : Feature → Bool
  | .modeIndependent n => flagOf cfg.modeIndependentFlags n
  | .incrementIAfterBlockMemory => decide (Feature.incrementIAfterBlockMemory ∈ modeFeatures cfg.systemMode)
  | .shiftSourcesVx => decide (Feature.shiftSourcesVx ∈ modeFeatures cfg.systemMode)

/-- The shift source of `8xy6` and `8xyE` (R155). -/
def State.shiftSource (s : State) (x y : Idx) : Byte :=
  if isEnabled s.cfg .shiftSourcesVx then s.reg x else s.reg y

/-- `I` after a block transfer of `V[0..x]` (R227). -/
def State.indexAfterBlock (s : State) (x : Idx) : Word :=
  if isEnabled s.cfg .incrementIAfterBlockMemory then s.i + BitVec.ofNat 16 (x.val + 1) else s.i

/-- The keys active now, in rising order: the set `P` of rule R242. -/
def State.activeKeys (s : State) : List Idx := (List.finRange 16).filter fun k => s.key[k]

end Sys2Proof.Machine
end

