-- ==== Sys2Proof/Machine/Flags.lean ====
section
/-! DEFINITION. Every computation of the flag that an instruction writes into VF (rules R147 to R151, R153, R157), and the
write of a result and its flag. -/

namespace Sys2Proof.Machine

/-- A flag as the byte that VF holds. -/
def flagByte (c : Bool) : Byte := if c then 1 else 0

/-- The carry out of bit 7 of an addition in the integers (R147). -/
def carryOut (a b : Byte) : Bool := decide (a.toNat + b.toNat > 0xFF)

/-- No borrow: the minuend is at least the subtrahend (R157). -/
def notBorrow (a b : Byte) : Bool := decide (a.toNat ≥ b.toNat)

/-- The bit that a right shift by one shifts out (R149). -/
def shiftedOutRight (src : Byte) : Bool := src.getLsbD 0

/-- The bit that a left shift by one shifts out (R151). -/
def shiftedOutLeft (src : Byte) : Bool := src.getLsbD 7

/-- Write a result to `V[x]` first and its flag to VF second, so that the flag wins when x = F (R153). -/
def State.setResultAndFlag (x : Idx) (result : Byte) (flag : Bool) (s : State) : State :=
  (s.setReg x result).setReg flagReg (flagByte flag)

end Sys2Proof.Machine
end

