-- ==== Sys2Proof/Machine/Ops.lean ====
section
/-! DEFINITION. The operations the meanings share: moving `pc` (rules R26, R27, R171), raising a fault (R261, R267) and
running an unknown opcode (R266), the range checks (R64, R82), the return stack (R29, R30) and the sound timer (R278). -/

namespace Sys2Proof.Machine

/-- What a step or a meaning answers. -/
abbrev Result := Host.Outcome State Fault Refusal

/-- `pc <- pc + 2` modulo 2^16, for an instruction that does not redirect control flow (R26, R27). -/
def State.advance (s : State) : State := { s with pc := s.pc + 2 }

/-- `pc <- target` (R26). -/
def State.jumpTo (target : Word) (s : State) : State := { s with pc := target }

/-- The skip law of rule R171. -/
def State.skipIf (c : Bool) (s : State) : State := { s with pc := if c then s.pc + 4 else s.pc + 2 }

/-- The state a fatal fault leaves (R261, R267): nothing changes but `status`, which keeps the fault record. The session ends
with it, so the rendering collaborator is told `halt()` (R288). -/
def State.faulted (f : SessionFault) (s : State) : State :=
  { s with status := .fatal f, outputs := .displayHalt :: s.outputs }

/-- The fault codes of rule R262, the spec's own numbers. No step reads them. -/
def faultCode : SessionFault → Nat
  | .outOfRange _ _ => 1
  | .stackOverflow _ => 2
  | .stackUnderflow _ => 3
  | .unknownInstruction _ _ => 4

/-- TAKING A FAULT: `raise F(info)` of rule R261. There is no handler, no vector and no return from it (R271): the session
ends. The stop itself is the next step's, since `step` has nothing to run in a `Fatal` status (log entry 3). -/
def raise (f : SessionFault) (s : State) : Result := .next (s.faulted f)

/-- Executing a word that decodes to `Unknown(op)` (R101, R121, R266, log entry 22). -/
def unknownInstruction (op : Word) (s : State) : Result :=
  match s.cfg.unknownOpcodePolicy with
  | .halt => raise (.unknownInstruction s.pc op) s
  | .skip => .next s.advance

/-- Go on with the value of a check, or raise the fault it found (R261). -/
def orRaise {α : Type} (s : State) (c : Except SessionFault α) (k : α → Result) : Result :=
  match c with
  | .ok a => k a
  | .error f => raise f s

/-- The first of the `n` addresses from `a` on that is not below `size`. -/
def firstOutOfRange (size a : Nat) : Nat → Option Nat
  | 0 => none
  | n + 1 => if a < size then firstOutOfRange size (a + 1) n else some a

/-- The check made before a transfer of `n` bytes at `a`: the lowest failing address is reported (R64, R82, R267). -/
def checkRange (op : AccessOp) (a n : Nat) (s : State) : Except SessionFault Unit :=
  match firstOutOfRange s.cfg.memorySize a n with
  | none => .ok ()
  | some bad => .error (.outOfRange bad op)

/-- The `n` bytes of memory from `a` on, without a range check. -/
def State.bytesAt (s : State) (a : Nat) : Nat → List Byte
  | 0 => []
  | n + 1 => s.byteAt a :: s.bytesAt (a + 1) n

/-- `MemRead(a, 1)` (R64). -/
def memRead (a : Nat) (s : State) : Except SessionFault Byte :=
  (checkRange .read a 1 s).map fun _ => s.byteAt a

/-- `MemWrite(a, 1, b)` (R64). -/
def memWrite (a : Nat) (b : Byte) (s : State) : Except SessionFault State :=
  (checkRange .write a 1 s).map fun _ => s.putByte a b

/-- Read `n` bytes from `a` on, all or none (R82). -/
def readBlock (a n : Nat) (s : State) : Except SessionFault (List Byte) :=
  (checkRange .read a n s).map fun _ => s.bytesAt a n

/-- Write bytes from `a` on, all or none (R82). -/
def writeBlock (a : Nat) (bs : List Byte) (s : State) : Except SessionFault State :=
  (checkRange .write a bs.length s).map fun _ => s.putBytes a bs

/-- `Push(v)` (R29). -/
def push (v : Word) (s : State) : Except SessionFault State :=
  if s.stack.length = s.cfg.stackSize then .error (.stackOverflow s.pc)
  else .ok { s with stack := v :: s.stack }

/-- `Pop()` (R30). -/
def pop (s : State) : Except SessionFault (Word × State) :=
  match s.stack with
  | [] => .error (.stackUnderflow s.pc)
  | v :: rest => .ok (v, { s with stack := rest })

/-- What the tone collaborator is told when `ST` goes from one value to another (R278): `start()` on a change from 0 to a
positive value, `stop()` on a change from a positive value to 0, nothing otherwise (R279). -/
def toneEvent (old new : Byte) : Option Output :=
  if old = 0 ∧ new ≠ 0 then some .toneStart else if old ≠ 0 ∧ new = 0 then some .toneStop else none

/-- `toneOn` after that event (R278). -/
def toneAfter (event : Option Output) (toneOn : Bool) : Bool :=
  match event with
  | some .toneStart => true
  | some .toneStop => false
  | _ => toneOn

/-- Write `ST` with the tone transition of rule R278, one atomic action. -/
def State.setSoundTimer (b : Byte) (s : State) : State :=
  { s with
    st := b
    toneOn := toneAfter (toneEvent s.st b) s.toneOn
    outputs := (toneEvent s.st b).toList ++ s.outputs }

/-- The tick law of rule R276: one less, stopping at 0. -/
def tick (t : Byte) : Byte := if t = 0 then 0 else t - 1

/-- Take a draw: the counter that the free values are applied to moves on (R9). -/
def State.drawn (s : State) : State := { s with draws := s.draws + 1 }

end Sys2Proof.Machine
end

