-- ==== Sys2Proof/Machine/Arith.lean ====
section
/-! DEFINITION. The register arithmetic and logic family (rules R141 to R158). Every operand is read before a register is
written (R154); sums and differences are stored modulo 2^8 (R152). -/

namespace Sys2Proof.Machine

/-- LD Vx, byte (R141). -/
def execLdByte (x : Idx) (kk : Byte) (s : State) : Result := .next (s.setReg x kk).advance

/-- ADD Vx, byte (R142): VF is not written (R156). -/
def execAddByte (x : Idx) (kk : Byte) (s : State) : Result := .next (s.setReg x (s.reg x + kk)).advance

/-- LD Vx, Vy (R143). -/
def execLdReg (x y : Idx) (s : State) : Result := .next (s.setReg x (s.reg y)).advance

/-- OR Vx, Vy (R144). -/
def execOrReg (x y : Idx) (s : State) : Result := .next (s.setReg x (s.reg x ||| s.reg y)).advance

/-- AND Vx, Vy (R145). -/
def execAndReg (x y : Idx) (s : State) : Result := .next (s.setReg x (s.reg x &&& s.reg y)).advance

/-- XOR Vx, Vy (R146). -/
def execXorReg (x y : Idx) (s : State) : Result := .next (s.setReg x (s.reg x ^^^ s.reg y)).advance

/-- ADD Vx, Vy (R147). -/
def execAddReg (x y : Idx) (s : State) : Result :=
  .next (s.setResultAndFlag x (s.reg x + s.reg y) (carryOut (s.reg x) (s.reg y))).advance

/-- SUB Vx, Vy (R148). -/
def execSubReg (x y : Idx) (s : State) : Result :=
  .next (s.setResultAndFlag x (s.reg x - s.reg y) (notBorrow (s.reg x) (s.reg y))).advance

/-- SHR Vx, Vy (R149). -/
def execShr (x y : Idx) (s : State) : Result :=
  .next (s.setResultAndFlag x (s.shiftSource x y >>> 1) (shiftedOutRight (s.shiftSource x y))).advance

/-- SUBN Vx, Vy (R150). -/
def execSubn (x y : Idx) (s : State) : Result :=
  .next (s.setResultAndFlag x (s.reg y - s.reg x) (notBorrow (s.reg y) (s.reg x))).advance

/-- SHL Vx, Vy (R151). -/
def execShl (x y : Idx) (s : State) : Result :=
  .next (s.setResultAndFlag x (s.shiftSource x y <<< 1) (shiftedOutLeft (s.shiftSource x y))).advance

/-- The effect of RND for a drawn byte `r` (R158). -/
def State.setRandom (x : Idx) (kk r : Byte) (s : State) : State := (s.setReg x (r &&& kk)).drawn.advance

/-- RND Vx, byte (R158): the byte is the free value of this draw. -/
def execRnd (x : Idx) (kk : Byte) (s : State) : Result := .next (s.setRandom x kk (Config.randomByte s.draws))

end Sys2Proof.Machine
end

