-- ==== Sys2Proof/Machine/Control.lean ====
section
/-! DEFINITION. The control-transfer family: SYS, RET, JP, CALL, JP V0 (rules R121 to R127). -/

namespace Sys2Proof.Machine

/-- SYS addr (R121): the word is `Unknown`, handled by the policy of R266. -/
def execSys (nnn : Addr12) (s : State) : Result := unknownInstruction (encode (.sys nnn)) s

/-- RET (R122): the popped value is the CALL's own address, so 2 is added (90_conflicts.md C1). -/
def execRet (s : State) : Result :=
  orRaise s (pop s) fun popped => .next (popped.2.jumpTo (popped.1 + 2))

/-- JP addr (R123). -/
def execJp (nnn : Addr12) (s : State) : Result := .next (s.jumpTo (zext16 nnn))

/-- CALL addr (R124): the CALL's own address is pushed. -/
def execCall (nnn : Addr12) (s : State) : Result :=
  orRaise s (push s.pc s) fun s' => .next (s'.jumpTo (zext16 nnn))

/-- JP V0, addr (R125). -/
def execJpV0 (nnn : Addr12) (s : State) : Result :=
  .next (s.jumpTo (zext16 nnn + (s.reg 0).setWidth 16))

end Sys2Proof.Machine
end

