-- ==== Sys2Proof/Machine/Display.lean ====
section
/-! DEFINITION. The display engine and the collision detector: the pixel operations, CLS and DRW (rules R191 to R204). -/

namespace Sys2Proof.Machine

/-- The pixel at row `y`, column `x` (R36). Outside the grid it reads dark (log entry 14). -/
def getPixel (fb : Framebuffer) (y x : Nat) : Bool := (fb.getD y []).getD x false

/-- Flip the pixel at row `y`, column `x`. -/
def togglePixel (fb : Framebuffer) (y x : Nat) : Framebuffer := fb.modify y fun row => row.modify x Bool.not

/-- The dark framebuffer of the configured size (R308). -/
def darkFramebuffer (cfg : Config) : Framebuffer :=
  List.replicate cfg.displayHeight (List.replicate cfg.displayWidth false)

/-- The columns that the 1 bits of a sprite row reach, bit 7 first, at column `x0` (R194 to R196). -/
def rowColumns (w x0 : Nat) (b : Byte) : List Nat :=
  ((List.range 8).filter fun k => b.getLsbD (7 - k)).map fun k => (x0 + k) % w

/-- Flip the pixels of row `y` at the given columns one after another, and say whether a lit one turned dark. -/
def flipColumns (y : Nat) : List Nat → Framebuffer → Framebuffer × Bool
  | [], fb => (fb, false)
  | c :: cs, fb =>
    let later := flipColumns y cs (togglePixel fb y c)
    (later.1, getPixel fb y c || later.2)

/-- The row draw primitive `drawRow(x0, y, b)` of rule R194, on a grid `w` columns wide. -/
def drawRow (w x0 y : Nat) (b : Byte) (fb : Framebuffer) : Framebuffer × Bool := flipColumns y (rowColumns w x0 b) fb

/-- Draw the sprite rows `r, r+1, …` and OR their results (R193, R197, R198). -/
def drawRows (cfg : Config) (x0 y0 : Nat) : Nat → List Byte → Framebuffer → Framebuffer × Bool
  | _, [], fb => (fb, false)
  | r, b :: bs, fb =>
    if cfg.verticalEdge = .clip ∧ y0 + r ≥ cfg.displayHeight then drawRows cfg x0 y0 (r + 1) bs fb
    else
      let d := drawRow cfg.displayWidth x0 ((y0 + r) % cfg.displayHeight) b fb
      let later := drawRows cfg x0 y0 (r + 1) bs d.1
      (later.1, d.2 || later.2)

/-- Draw a whole sprite at the coordinates that two registers hold (R193, R196, R197). -/
def drawSprite (cfg : Config) (vx vy : Byte) (rows : List Byte) (fb : Framebuffer) : Framebuffer × Bool :=
  drawRows cfg (vx.toNat % cfg.displayWidth) (vy.toNat % cfg.displayHeight) 0 rows fb

/-- `hasCollision()` of rule R199: the flag's value, and the flag cleared. -/
def hasCollision (s : State) : Bool × State := (s.collision, { s with collision := false })

/-- CLS (R192). -/
def execCls (s : State) : Result :=
  .next { s with fb := darkFramebuffer s.cfg, collision := false }.advance

/-- The framebuffer and the collision flag after a sprite is drawn (R198). -/
def State.withSprite (x y : Idx) (rows : List Byte) (s : State) : State :=
  let d := drawSprite s.cfg (s.reg x) (s.reg y) rows s.fb
  { s with fb := d.1, collision := s.collision || d.2 }

/-- The end of DRW: the CPU consumes the collision flag into VF (R200). -/
def State.consumeCollision (s : State) : State :=
  (hasCollision s).2.setReg flagReg (flagByte (hasCollision s).1)

/-- DRW Vx, Vy, nibble (R193, R201, R202): every sprite byte is read before a pixel changes. A row count of 0 is `Unknown` in
SUPER_CHIP (R108); the decoder rejects that word, and the meaning treats the term alike (log entry 12). -/
def execDrw (x y n : Idx) (s : State) : Result :=
  if n = 0 ∧ s.mode = .superChip then unknownInstruction (encode (.drw x y n)) s
  else
    orRaise s (readBlock (s.effectiveAddress 0) n.val s) fun rows => .next (s.withSprite x y rows).consumeCollision.advance

end Sys2Proof.Machine
end

