-- ==== Sys2Proof/Machine/IndexMemory.lean ====
section
/-! DEFINITION. The index register and block memory family (rules R221 to R228). -/

namespace Sys2Proof.Machine

/-- LD I, addr (R221). -/
def execLdI (nnn : Addr12) (s : State) : Result := .next { s with i := zext16 nnn }.advance

/-- ADD I, Vx (R222): VF is not written. -/
def execAddIVx (x : Idx) (s : State) : Result := .next { s with i := s.i + (s.reg x).setWidth 16 }.advance

/-- LD F, Vx (R223). -/
def execLdFVx (x : Idx) (s : State) : Result := .next { s with i := fontAddress s.cfg (s.reg x) }.advance

/-- LD B, Vx (R224). -/
def execLdBVx (x : Idx) (s : State) : Result :=
  orRaise s (writeBlock (s.effectiveAddress 0) (bcdDigits (s.reg x)) s) fun s' => .next s'.advance

/-- LD [I], Vx (R225, R227). -/
def execStoreRegs (x : Idx) (s : State) : Result :=
  orRaise s (writeBlock (s.effectiveAddress 0) (s.regsUpTo x) s) fun s' =>
    .next { s' with i := s.indexAfterBlock x }.advance

/-- LD Vx, [I] (R226, R227). -/
def execLoadRegs (x : Idx) (s : State) : Result :=
  orRaise s (readBlock (s.effectiveAddress 0) (x.val + 1) s) fun bs =>
    .next { s.setRegs bs with i := s.indexAfterBlock x }.advance

end Sys2Proof.Machine
end

