-- ==== Sys2Proof/Machine/Skips.lean ====
section
/-! DEFINITION. The conditional skips (rules R171 to R178). -/

namespace Sys2Proof.Machine

/-- SE Vx, byte (R172). -/
def execSeByte (x : Idx) (kk : Byte) (s : State) : Result := .next (s.skipIf (decide (s.reg x = kk)))

/-- SNE Vx, byte (R173). -/
def execSneByte (x : Idx) (kk : Byte) (s : State) : Result := .next (s.skipIf (decide (s.reg x ≠ kk)))

/-- SE Vx, Vy (R174). -/
def execSeReg (x y : Idx) (s : State) : Result := .next (s.skipIf (decide (s.reg x = s.reg y)))

/-- SNE Vx, Vy (R175). -/
def execSneReg (x y : Idx) (s : State) : Result := .next (s.skipIf (decide (s.reg x ≠ s.reg y)))

/-- The state of the key that a register names, or the fault of rule R178: an index above 15 is not masked. -/
def keyNamedBy (b : Byte) (s : State) : Except SessionFault Bool :=
  if h : b.toNat < 16 then .ok s.key[b.toNat] else .error (.outOfRange b.toNat .keyTest)

/-- SKP Vx (R176). -/
def execSkp (x : Idx) (s : State) : Result :=
  orRaise s (keyNamedBy (s.reg x) s) fun pressed => .next (s.skipIf pressed)

/-- SKNP Vx (R177). -/
def execSknp (x : Idx) (s : State) : Result :=
  orRaise s (keyNamedBy (s.reg x) s) fun pressed => .next (s.skipIf !pressed)

end Sys2Proof.Machine
end

