-- ==== Sys2Proof/Machine/TimersInput.lean ====
section
/-! DEFINITION. The timer and key-wait instructions (rules R241 to R244). -/

namespace Sys2Proof.Machine

/-- LD Vx, DT (R241). -/
def execLdVxDT (x : Idx) (s : State) : Result := .next (s.setReg x s.dt).advance

/-- `hold` of rules R11 and R12: the CPU step ends with no state change, and the same instruction is fetched again. -/
def hold (s : State) : Result := .next s

/-- The effect of the key wait for a chosen key `k` (R242). -/
def State.setKeyPressed (x k : Idx) (s : State) : State := (s.setReg x (BitVec.ofNat 8 k.val)).drawn.advance

/-- LD Vx, K (R242): hold while no key is active, otherwise store an active key, which one being the free value of this
draw. -/
def execLdVxK (x : Idx) (s : State) : Result :=
  match s.activeKeys with
  | [] => hold s
  | k :: ks => .next (s.setKeyPressed x ((k :: ks).getD (Config.keyChoice s.draws % (k :: ks).length) k))

/-- LD DT, Vx (R243). -/
def execLdDTVx (x : Idx) (s : State) : Result := .next { s with dt := s.reg x }.advance

/-- LD ST, Vx (R244). -/
def execLdSTVx (x : Idx) (s : State) : Result := .next (s.setSoundTimer (s.reg x)).advance

end Sys2Proof.Machine
end

