-- ==== Sys2Proof/Machine/Agents.lean ====
section
/-! DEFINITION. One step of each agent: the CPU's fetch, decode and execute (rules R100, R281), the timer unit (R277, R282),
the display loop (R283), and the host setting a key or raising the halt signal (R284, R285). -/

namespace Sys2Proof.Machine

/-- The fetch of rule R100: `pc + 1` is computed in the integers, and the lowest failing address is reported. -/
def fetch (s : State) : Except SessionFault Word :=
  (checkRange .fetch s.pc.toNat 2 s).map fun _ => wordOfBytes (s.byteAt s.pc.toNat) (s.byteAt (s.pc.toNat + 1))

/-- Run the instruction of an opcode, or treat it as unknown (R101, R281). `pc` still holds the instruction's address. -/
def runWord (op : Word) (s : State) : Result :=
  match decode op s.mode with
  | .ok i => exec i s
  | .error _ => unknownInstruction op s

/-- One CPU step (R281). -/
def cpuStep (s : State) : Result := orRaise s (fetch s) fun op => runWord op s

/-- One timer step: both timers tick in one atomic action, with the tone transition (R277, R278). -/
def timerStep (s : State) : Result := .next { s.setSoundTimer (tick s.st) with dt := tick s.dt }

/-- One display step: the snapshot is handed to the rendering collaborator and no state of the block changes (R204, R283). -/
def displayStep (s : State) : Result := .next { s with outputs := .displayUpdate s.fb :: s.outputs }

/-- The host sets a key (R284, R290). -/
def hostKeyStep (k : Idx) (active : Bool) (s : State) : Result := .next { s with key := s.key.set k active }

/-- The host raises the halt signal (R285); the rendering collaborator is told `halt()` (R288). -/
def hostHaltStep (s : State) : Result := .next { s with status := .halted, outputs := .displayHalt :: s.outputs }

/-- One step of an agent in a running session (R281 to R285). -/
def agentStep (a : AgentStep) (s : State) : Result :=
  match a with
  | .cpu => cpuStep s
  | .timer => timerStep s
  | .display => displayStep s
  | .hostKey k active => hostKeyStep k active s
  | .hostHalt => hostHaltStep s

/-- Whose step comes next: the first of the agenda, or the CPU's where none is listed (R286, log entry 4). -/
def State.nextAgent (s : State) : AgentStep := s.agenda.headD .cpu

/-- The state with that step taken off the agenda. -/
def State.popAgenda (s : State) : State := { s with agenda := s.agenda.tail }

end Sys2Proof.Machine
end

