-- ==== Sys2Proof/Machine/Session.lean ====
section
/-! DEFINITION. Session start: which configurations are legal (rule R8), the ROM load (R307) and the whole sequence (R301). -/

namespace Sys2Proof.Machine

/-- The conditions of rule R8 (log entry 11). -/
def legalConfig (cfg : Config) : Bool :=
  decide (cfg.programStartAddress.toNat < cfg.memorySize) &&
  decide (cfg.fontBaseAddress.toNat + 80 ≤ cfg.programStartAddress.toNat) &&
  decide (cfg.numberOfGeneralPurposeRegisters = 16) &&
  decide (1 ≤ cfg.stackSize) &&
  decide (2 ≤ cfg.memorySize) &&
  decide (cfg.memorySize ≤ 65536)

/-- Session start for a configuration and a ROM (R301). An illegal configuration is refused. A ROM that does not fit raises
`OutOfRange(memorySize, rom-load)` before any byte is written, and the session never runs (R307); the rendering collaborator
has then not been initialised. What V, I, pc, the stack, DT, ST, toneOn, fb, collision and the keys hold in that state no rule
says, since R301 resets them after the load; the model gives them their reset values (DESIGN CHOICE, log entry 18). Otherwise
the ROM stands at `programStartAddress`. -/
def startSession (cfg : Config) (rom : List Byte) : Result :=
  if legalConfig cfg then
    if cfg.programStartAddress.toNat + rom.length ≤ cfg.memorySize then
      .next ((State.start cfg).putBytes cfg.programStartAddress.toNat rom)
    else .next { State.start cfg with status := .fatal (.outOfRange cfg.memorySize .romLoad), outputs := [] }
  else .refused .illegalConfiguration

end Sys2Proof.Machine
end

