-- ==== Sys2Proof/Machine/Step.lean ====
section
/-! DEFINITION. One step of the whole block. -/

namespace Sys2Proof.Machine

/-- One step: the agent whose turn it is takes one atomic step (R281 to R286). No agent has a step once the session has ended
(R38, R261, R285), and none is taken in an illegal configuration (R8, R12). -/
def step (s : State) : Host.Outcome State Fault Refusal :=
  if legalConfig s.cfg then
    match s.status with
    | .running => agentStep s.nextAgent s.popAgenda
    | .halted => .fault .sessionHalted
    | .fatal f => .fault (.sessionFatal f)
  else .refused .illegalConfiguration

/-- `s` with the instruction whose `nbits` bits are `w` stored at `pc`, high byte first, in a running session whose next step
is the CPU's, so that the next step fetches and runs exactly it. Where `pc` and `pc + 1` are not both addresses there is no
such place, and memory is left alone. It stands for a load from outside the machine (R291, log entry 10). -/
def State.withFetchWord (s : State) (nbits w : Nat) : State :=
  let t := { s with status := .running, agenda := [] }
  if s.pc.toNat + 1 < s.cfg.memorySize then
    t.putBytes s.pc.toNat [highByte (tableWord nbits w), lowByte (tableWord nbits w)]
  else t

end Sys2Proof.Machine
end

