-- ==== Sys2Proof/Safety.lean ====
section
/-! DEFINITION. What claims are stated in: the invariant of the block, faulted states, and runs under a schedule of agent steps
(rules R34 to R36, R261, R286). -/

namespace Sys2Proof.Machine

/-- The invariant of the block. It holds when a session starts, and every step keeps it. -/
structure State.Inv (s : State) : Prop where
  /-- The stack holds at most `stackSize` entries (R28). -/
  stackBound : s.stack.length ≤ s.cfg.stackSize
  /-- The tone is on exactly while the sound timer is positive (R34). -/
  toneFollowsSound : s.toneOn = decide (s.st ≠ 0)
  /-- The collision flag is false at every instruction boundary (R35). -/
  collisionClear : s.collision = false
  /-- The framebuffer has `displayHeight` rows (R36). -/
  fbRows : s.fb.length = s.cfg.displayHeight
  /-- Each row has `displayWidth` pixels (R36). -/
  fbColumns : ∀ row ∈ s.fb, row.length = s.cfg.displayWidth
  /-- Memory is in its canonical form, and lists no address outside `[0, memorySize)` (R61). -/
  memCanonical : s.mem.wf (resetByte s.cfg) s.cfg.memorySize = true

/-- The step that takes `s` to `t` raised a fatal fault (R261). -/
def Faulted (t : State) : Prop := ∃ f, t.status = .fatal f

/-- The registers an instruction may write: the table of rule R49, columns `V` and `VF as flag`. -/
def writesReg : Instr → Idx → Bool
  | .ldByte x _, j => decide (j = x)
  | .addByte x _, j => decide (j = x)
  | .ldReg x _, j => decide (j = x)
  | .orReg x _, j => decide (j = x)
  | .andReg x _, j => decide (j = x)
  | .xorReg x _, j => decide (j = x)
  | .addReg x _, j => decide (j = x) || decide (j = 15)
  | .subReg x _, j => decide (j = x) || decide (j = 15)
  | .shr x _, j => decide (j = x) || decide (j = 15)
  | .subn x _, j => decide (j = x) || decide (j = 15)
  | .shl x _, j => decide (j = x) || decide (j = 15)
  | .rnd x _, j => decide (j = x)
  | .drw _ _ _, j => decide (j = 15)
  | .ldVxDT x, j => decide (j = x)
  | .ldVxK x, j => decide (j = x)
  | .loadRegs x, j => decide (j ≤ x)
  | .sys _, _ => false
  | .cls, _ => false
  | .ret, _ => false
  | .jp _, _ => false
  | .call _, _ => false
  | .seByte _ _, _ => false
  | .sneByte _ _, _ => false
  | .seReg _ _, _ => false
  | .sneReg _ _, _ => false
  | .ldI _, _ => false
  | .jpV0 _, _ => false
  | .skp _, _ => false
  | .sknp _, _ => false
  | .ldDTVx _, _ => false
  | .ldSTVx _, _ => false
  | .addIVx _, _ => false
  | .ldFVx _, _ => false
  | .ldBVx _, _ => false
  | .storeRegs _, _ => false

/-- How often the sprite whose row `r` is `rows r` for `r < n`, drawn at start column `x0` and start row `y0`, has a 1 bit for
the pixel at row `y`, column `x`: bit `7 - k` of row `r` stands for column `(x0 + k) mod W` of row `(y0 + r) mod H`, and under
`Clip` a row below the bottom edge stands for nothing (R194 to R197). -/
def spriteHits (cfg : Config) (x0 y0 n : Nat) (rows : Nat → Byte) (y x : Nat) : Nat :=
  ((Finset.range n ×ˢ Finset.range 8).filter fun p =>
    (rows p.1).getLsbD (7 - p.2) = true ∧ (cfg.verticalEdge = .wrap ∨ y0 + p.1 < cfg.displayHeight) ∧
    (y0 + p.1) % cfg.displayHeight = y ∧ (x0 + p.2) % cfg.displayWidth = x).card

/-- A schedule of agent steps: which agent takes the n-th step of a run (R286). -/
abbrev Schedule := Nat → AgentStep

/-- One step of the block in which the given agent has its turn, whatever the agenda says. -/
def scheduledStep (a : AgentStep) (s : State) : Result := step { s with agenda := [a] }

/-- The outcome of the first `n` steps of a run under a schedule. -/
def runUnder (σ : Schedule) (s : State) : Nat → Result
  | 0 => .next s
  | n + 1 =>
    match runUnder σ s n with
    | .next t => scheduledStep (σ n) t
    | .fault f => .fault f
    | .refused r => .refused r

/-- The weak fairness of rule R286: the CPU, the timer and the display loop each take infinitely many steps. -/
def WeaklyFair (σ : Schedule) : Prop :=
  ∀ a ∈ [AgentStep.cpu, AgentStep.timer, AgentStep.display], ∀ n, ∃ m, n ≤ m ∧ σ m = a

end Sys2Proof.Machine
end

