-- ==== Sys2Proof/Certificates/Slice0/Obligations.lean ====
section
/-! DEFINITION. The statements for the provers. Each is written over the state's fields and plain arithmetic, from the numbered
rules of spec/. A result statement has the form "exec answers a next state t", with `t = { s with … }` naming every field that
may differ, so that it also says what is left alone. Three fields are the model's own and not the spec's: `agenda` (log
entry 4), `draws` (log entry 7) and `outputs` (log entry 8). A clause on one of them is the model's choice, and the docstring
of its statement names the log entry. A fault of rule R261 is a next state whose status is Fatal; that the stop comes at the
following step is log entry 3. A statement over every term also speaks of the terms that no word decodes to (log entry 12). -/

namespace Sys2Proof.Machine

/-- The font of rule R306, digit by digit. -/
def hexFont : List (List Byte) :=
  [[0xF0, 0x90, 0x90, 0x90, 0xF0], [0x20, 0x60, 0x20, 0x20, 0x70], [0xF0, 0x10, 0xF0, 0x80, 0xF0],
   [0xF0, 0x10, 0xF0, 0x10, 0xF0], [0x90, 0x90, 0xF0, 0x10, 0x10], [0xF0, 0x80, 0xF0, 0x10, 0xF0],
   [0xF0, 0x80, 0xF0, 0x90, 0xF0], [0xF0, 0x10, 0x20, 0x40, 0x40], [0xF0, 0x90, 0xF0, 0x90, 0xF0],
   [0xF0, 0x90, 0xF0, 0x10, 0xF0], [0xF0, 0x90, 0xF0, 0x90, 0x90], [0xE0, 0x90, 0xE0, 0x90, 0xE0],
   [0xF0, 0x80, 0x80, 0x80, 0xF0], [0xE0, 0x90, 0x90, 0x90, 0xE0], [0xF0, 0x80, 0xF0, 0x80, 0xF0],
   [0xF0, 0x80, 0xF0, 0x80, 0x80]]

/-- The conditions of rule R8. -/
def LegalByR8 (cfg : Config) : Prop :=
  cfg.programStartAddress.toNat < cfg.memorySize ∧ cfg.fontBaseAddress.toNat + 80 ≤ cfg.programStartAddress.toNat ∧
  cfg.numberOfGeneralPurposeRegisters = 16 ∧ 1 ≤ cfg.stackSize ∧ 2 ≤ cfg.memorySize ∧ cfg.memorySize ≤ 65536

/-- A legal configuration, a running session, and the given agent next (R8, R281, R286). -/
def TurnOf (a : AgentStep) (s : State) : Prop :=
  LegalByR8 s.cfg ∧ s.status = .running ∧ s.agenda.headD .cpu = a

/-- The opcode at `pc`, high byte first, where both of its bytes exist (R67, R100). -/
def OpcodeAtPc (s : State) (op : Word) : Prop :=
  s.pc.toNat + 1 < s.cfg.memorySize ∧ op = s.byteAt s.pc.toNat ++ s.byteAt (s.pc.toNat + 1)

/-- The framebuffer has the configured size (R36), as the invariant says. -/
def FbSized (s : State) : Prop := s.fb.length = s.cfg.displayHeight ∧ ∀ row ∈ s.fb, row.length = s.cfg.displayWidth

/-- Memory is in its canonical form, as the invariant says. -/
def MemCanonical (s : State) : Prop := s.mem.wf (resetByte s.cfg) s.cfg.memorySize = true

end Sys2Proof.Machine

open Sys2Proof Sys2Proof.Machine

/-! ### Session start -/

/-- R301 to R306, R308 to R311: what session start leaves, for every legal configuration and every ROM that fits. The clause
`t.outputs = [.displayInit]` is on the model's own record of R288's calls (log entry 8): `init` was called and no tone event
was emitted. -/
def Obligations.SessionStartState : Prop :=
  ∀ (cfg : Config) (rom : List Byte), LegalByR8 cfg → cfg.programStartAddress.toNat + rom.length ≤ cfg.memorySize →
    ∃ t, startSession cfg rom = .next t ∧ (∀ j, t.reg j = 0) ∧ t.i = 0 ∧ t.stack = [] ∧ t.dt = 0 ∧ t.st = 0 ∧
      t.toneOn = false ∧ t.outputs = [.displayInit] ∧ t.fb.length = cfg.displayHeight ∧
      (∀ row ∈ t.fb, row.length = cfg.displayWidth ∧ ∀ p ∈ row, p = false) ∧ t.collision = false ∧
      (∀ k : Idx, t.key[k] = false) ∧ t.mode = cfg.systemMode ∧ t.cfg = cfg ∧ t.pc = cfg.programStartAddress ∧
      t.status = .running ∧
      (∀ d k, d < 16 → k < 5 → t.byteAt (cfg.fontBaseAddress.toNat + 5 * d + k) = (hexFont.getD d []).getD k 0) ∧
      (∀ a, a < cfg.memorySize → (a < cfg.fontBaseAddress.toNat ∨ cfg.fontBaseAddress.toNat + 80 ≤ a) →
        (a < cfg.programStartAddress.toNat ∨ cfg.programStartAddress.toNat + rom.length ≤ a) → t.byteAt a = 0)

/-- R301, R302, R306, R307: the ROM stands at the program start, or the load faults before any byte is written and the session
never runs. That a failed load answers a next state with status Fatal is the model's reading of R307 (log entry 18, and
log entry 3 for faults). -/
def Obligations.RomLoadIsWholeOrNothing : Prop :=
  ∀ (cfg : Config) (rom : List Byte), LegalByR8 cfg →
    (cfg.programStartAddress.toNat + rom.length ≤ cfg.memorySize →
      ∃ t, startSession cfg rom = .next t ∧ t.status = .running ∧
        ∀ j, j < rom.length → t.byteAt (cfg.programStartAddress.toNat + j) = rom.getD j 0) ∧
    (cfg.memorySize < cfg.programStartAddress.toNat + rom.length →
      ∃ t, startSession cfg rom = .next t ∧ t.status = .fatal (.outOfRange cfg.memorySize .romLoad) ∧
        ∀ a, cfg.programStartAddress.toNat ≤ a → t.byteAt a = 0)

/-- R7: the default configuration, and that the host's reset state is session start with it and an empty ROM. Every default
that R7 gives is stated. Of `systemMode`, `interpreterStartAddress` and `cpuSpeed`, for which R7 gives none, nothing is said:
their values are the model's choice (log entries 1 and 2). -/
def Obligations.ResetIsDefaultSession : Prop :=
  startSession Config.default [] = .next State.reset ∧ Config.default.memorySize = 4096 ∧ Config.default.stackSize = 16 ∧
    Config.default.programStartAddress = 0x200 ∧ Config.default.displayWidth = 64 ∧ Config.default.displayHeight = 32 ∧
    Config.default.fontBaseAddress = 0 ∧ Config.default.verticalEdge = .wrap ∧
    Config.default.unknownOpcodePolicy = .halt ∧ Config.default.numberOfGeneralPurposeRegisters = 16 ∧
    (∀ n, isEnabled Config.default (.modeIndependent n) = false) ∧ Config.default.timerSpeed = 60 ∧
    Config.default.displayRefreshRate = 30 ∧ State.reset.pc = 0x200

/-- R8, R12: an illegal configuration is refused at session start and before any step. R8 says only that it is refused before
the first step; that `step` checks it again in every state is the model's choice (log entry 11). -/
def Obligations.IllegalConfigurationRefused : Prop :=
  ∀ (s : State) (rom : List Byte), ¬ LegalByR8 s.cfg →
    startSession s.cfg rom = .refused .illegalConfiguration ∧ step s = .refused .illegalConfiguration

/-- R42 to R44: which features the modes enable, that a mode-independent feature is off where the map has no entry, and that
it has the map's flag where there is one. R44 gives a map; the model holds it as a list of pairs, and that the first entry for
a feature counts is the model's choice (log entry 2). -/
def Obligations.FeaturesByMode : Prop :=
  ∀ (cfg : Config) (n : Nat),
    (isEnabled cfg .incrementIAfterBlockMemory = true ↔ cfg.systemMode = .chip8 ∨ cfg.systemMode = .chip48) ∧
    (isEnabled cfg .shiftSourcesVx = true ↔ cfg.systemMode = .chip48 ∨ cfg.systemMode = .superChip) ∧
    ((∀ b, (n, b) ∉ cfg.modeIndependentFlags) → isEnabled cfg (.modeIndependent n) = false) ∧
    (∀ pre b rest, cfg.modeIndependentFlags = pre ++ (n, b) :: rest → (∀ c, (n, c) ∉ pre) →
      isEnabled cfg (.modeIndependent n) = b)

/-! ### Encoding -/

/-- R95, R104, R106: decoding the word or the bytes of a well-formed instruction gives it back, in every mode. -/
def Obligations.DecodeOfEncode : Prop :=
  ∀ (i : Instr) (mode : SystemMode) (rest : List Byte), i.wellFormed mode = true →
    decode (encode i) mode = .ok i ∧ decodeBytes mode (encodeBytes i ++ rest) = .ok (i, rest)

/-- R95: a word that decodes is the encoding of what it decodes to, which is well-formed. -/
def Obligations.EncodeOfDecode : Prop :=
  ∀ (op : Word) (mode : SystemMode) (i : Instr), decode op mode = .ok i → encode i = op ∧ i.wellFormed mode = true

/-- R102: the words that decode to no admitted instruction (rejected, or SYS) are exactly the listed ones. -/
def Obligations.UnknownWordsAreTheListedOnes : Prop :=
  ∀ (op : Word) (mode : SystemMode),
    ((∃ e, decode op mode = .error e) ∨ ∃ nnn, decode op mode = .ok (.sys nnn)) ↔
      (op.toNat / 4096 = 0x0 ∧ op ≠ 0x00E0 ∧ op ≠ 0x00EE) ∨
      (op.toNat / 4096 = 0x5 ∧ op.toNat % 16 ≠ 0) ∨
      (op.toNat / 4096 = 0x8 ∧ op.toNat % 16 ∈ [0x8, 0x9, 0xA, 0xB, 0xC, 0xD, 0xF]) ∨
      (op.toNat / 4096 = 0x9 ∧ op.toNat % 16 ≠ 0) ∨
      (op.toNat / 4096 = 0xD ∧ op.toNat % 16 = 0 ∧ mode = .superChip) ∨
      (op.toNat / 4096 = 0xE ∧ op.toNat % 256 ∉ [0x9E, 0xA1]) ∨
      (op.toNat / 4096 = 0xF ∧ op.toNat % 256 ∉ [0x07, 0x0A, 0x15, 0x18, 0x1E, 0x29, 0x33, 0x55, 0x65])

/-- R108: only `Dxy0` decodes differently in the three modes. -/
def Obligations.ModeDecidesOnlyDxy0 : Prop :=
  (∀ (op : Word) (m m' : SystemMode), ¬(op.toNat / 4096 = 0xD ∧ op.toNat % 16 = 0) → decode op m = decode op m') ∧
  (∀ (op : Word) (x y : Idx), op.toNat = 0xD000 + 256 * x.val + 16 * y.val →
    decode op .chip8 = .ok (.drw x y 0) ∧ decode op .chip48 = .ok (.drw x y 0) ∧ ∃ e, decode op .superChip = .error e)

/-- R104: a word under a row's mask equals its match exactly if it decodes to that row's instruction, SYS (tried last) and the
`Dxy0` of SUPER_CHIP (R108) apart. -/
def Obligations.RowSelectedByMaskAndMatch : Prop :=
  ∀ (op : Word) (mode : SystemMode) (j : Instr), (∀ nnn, j ≠ .sys nnn) →
    ¬(op.toNat / 4096 = 0xD ∧ op.toNat % 16 = 0 ∧ mode = .superChip) →
    (op &&& tableMask j = tableMatch j ↔
      ∃ i, decode op mode = .ok i ∧ tableMask i = tableMask j ∧ tableMatch i = tableMatch j)

/-- Words written out from R104's patterns, one for each family, decode to the instructions they stand for. -/
def Obligations.SampleWordsDecode : Prop :=
  decode 0x2321 .chip8 = .ok (.call 0x321) ∧ decode 0x00EE .superChip = .ok .ret ∧
  decode 0x8126 .chip8 = .ok (.shr 1 2) ∧ decode 0x6A2F .chip48 = .ok (.ldByte 10 0x2F) ∧
  decode 0x9120 .chip8 = .ok (.sneReg 1 2) ∧ decode 0xE5A1 .chip8 = .ok (.sknp 5) ∧
  decode 0xD12F .superChip = .ok (.drw 1 2 15) ∧ decode 0xF255 .chip8 = .ok (.storeRegs 2) ∧
  decode 0xF30A .chip48 = .ok (.ldVxK 3) ∧ decode 0xF130 .chip8 = .error (.unknown .groupF 0xF130)

/-- R104 to R106: what an instruction is written as assembles to it, whatever its operands; an operand that does not fit its
field is an assembly error (R106); and SHR and SHL without a second register have y = 0 (R105). The first clause takes in SYS
at 0x0E0 and 0x0EE, whose words are those of CLS and RET; that the assembler accepts them is the model's choice (log
entry 25). -/
def Obligations.AssemblerPlacesOperands : Prop :=
  (∀ i : Instr, assemble (asmForm i).1 (asmForm i).2 = some i) ∧
  (∀ (x : Idx) (v : Nat), 0xFF < v → ∀ m ∈ ["SE", "SNE", "LD", "ADD", "RND"], assemble m [.reg x, .lit v] = none) ∧
  (∀ v : Nat, 0xFFF < v → (∀ m ∈ ["SYS", "JP", "CALL"], assemble m [.lit v] = none) ∧
    assemble "LD" [.index, .lit v] = none ∧ assemble "JP" [.reg 0, .lit v] = none) ∧
  (∀ (x y : Idx) (v : Nat), 0xF < v → assemble "DRW" [.reg x, .reg y, .lit v] = none) ∧
  (∀ x : Idx, assemble "SHR" [.reg x] = some (.shr x 0) ∧ assemble "SHL" [.reg x] = some (.shl x 0))

/-! ### The step -/

/-- R281, R100: when it is the CPU's turn and the bytes at `pc` decode to an instruction, the step is that instruction's
meaning at the state with the turn taken off the agenda, the model's own field (log entry 4); `pc` still holds the
instruction's address. -/
def Obligations.StepRunsDecodedInstruction : Prop :=
  ∀ (s : State) (op : Word) (i : Instr), TurnOf .cpu s → OpcodeAtPc s op → decode op s.cfg.systemMode = .ok i →
    step s = exec i { s with agenda := s.agenda.tail }

/-- R100: a fetch beyond memory raises `OutOfRange` at the first of the two addresses that is out of range. The record of the
`halt()` call and the turn taken off the agenda are on the model's own fields (log entries 8 and 4), and that the
fault is a next state is log entry 3. -/
def Obligations.FetchBeyondMemoryFaults : Prop :=
  ∀ s : State, TurnOf .cpu s → s.cfg.memorySize ≤ s.pc.toNat + 1 →
    step s = .next { s with
      status := .fatal (.outOfRange (if s.cfg.memorySize ≤ s.pc.toNat then s.pc.toNat else s.pc.toNat + 1) .fetch)
      outputs := .displayHalt :: s.outputs
      agenda := s.agenda.tail }

/-- R101, R266: a rejected word ends the session under `Halt`, and under `Skip` advances `pc` by 2 and changes no other state
of the spec's. The record of the `halt()` call and the turn taken off the agenda are on the model's own fields (log entries 8
and 4), and that the fault is a next state is log entry 3. -/
def Obligations.UnknownWordFollowsPolicy : Prop :=
  ∀ (s : State) (op : Word) (e : DecodeError), TurnOf .cpu s → OpcodeAtPc s op → decode op s.cfg.systemMode = .error e →
    (s.cfg.unknownOpcodePolicy = .halt → step s = .next { s with
      status := .fatal (.unknownInstruction s.pc op), outputs := .displayHalt :: s.outputs, agenda := s.agenda.tail }) ∧
    (s.cfg.unknownOpcodePolicy = .skip → step s = .next { s with pc := s.pc + 2, agenda := s.agenda.tail })

/-- R38, R261, R285: no agent has a step unless the session is running, and the status never changes again. That the step
answers the host's outcome `fault` then is the model's form of it (log entry 3). -/
def Obligations.EndedSessionHasNoStep : Prop :=
  ∀ s : State, LegalByR8 s.cfg →
    (s.status = .halted → step s = .fault .sessionHalted) ∧ ∀ f, s.status = .fatal f → step s = .fault (.sessionFatal f)

/-- R12, R261, R281: in a running session with a legal configuration every step of every agent answers a next state. R12 lists
`Next`, `Hold` and `Fatal` apart; all three are next states here, `Hold` the state as it was but for the turn taken off the
agenda (log entry 4) and `Fatal` the state with that status, by the model's reading of R261 (log entry 3). -/
def Obligations.RunningSessionAlwaysSteps : Prop :=
  ∀ s : State, LegalByR8 s.cfg → s.status = .running → ∃ t, step s = .next t

/-! ### Control transfer -/

/-- R121: SYS raises `UnknownInstruction` under `Halt`, and only advances `pc` under `Skip`. R121 leaves out 0x0E0 and 0x0EE,
whose words are those of CLS and RET; that the terms SYS 0x0E0 and SYS 0x0EE mean the same as every SYS is the model's choice
(log entry 12). The record of the `halt()` call (R288) is on the model's own field (log entry 8), and that the fault is a next
state is log entry 3. -/
def Obligations.SysIsUnknownInstruction : Prop :=
  ∀ (s : State) (nnn : Addr12),
    (s.cfg.unknownOpcodePolicy = .halt → ∃ op : Word, op.toNat = nnn.toNat ∧ exec (.sys nnn) s = .next { s with
      status := .fatal (.unknownInstruction s.pc op), outputs := .displayHalt :: s.outputs }) ∧
    (s.cfg.unknownOpcodePolicy = .skip → exec (.sys nnn) s = .next { s with pc := s.pc + 2 })

/-- R123, R125: the jumps set `pc` and change nothing else. -/
def Obligations.JumpsSetPc : Prop :=
  ∀ (s : State) (nnn : Addr12),
    (∃ t, exec (.jp nnn) s = .next t ∧ t = { s with pc := t.pc } ∧ t.pc.toNat = nnn.toNat) ∧
    (∃ t, exec (.jpV0 nnn) s = .next t ∧ t = { s with pc := t.pc } ∧ t.pc.toNat = nnn.toNat + (s.reg 0).toNat)

/-- R124, R29: CALL pushes its own address and jumps, or faults on a full stack with nothing changed but the status and the
record of the `halt()` call (R288), which is on the model's own field (log entry 8), and that the
fault is a next state is log entry 3. -/
def Obligations.CallPushesItsAddress : Prop :=
  ∀ (s : State) (nnn : Addr12),
    (s.stack.length ≠ s.cfg.stackSize → ∃ t, exec (.call nnn) s = .next t ∧
      t = { s with stack := s.pc :: s.stack, pc := t.pc } ∧ t.pc.toNat = nnn.toNat) ∧
    (s.stack.length = s.cfg.stackSize → exec (.call nnn) s = .next { s with
      status := .fatal (.stackOverflow s.pc), outputs := .displayHalt :: s.outputs })

/-- R122, R30: RET pops an address and resumes 2 beyond it, or faults on an empty stack with nothing changed but the status and
the record of the `halt()` call (R288), which is on the model's own field (log entry 8), and that the
fault is a next state is log entry 3. -/
def Obligations.RetResumesAfterCall : Prop :=
  ∀ s : State,
    (∀ (a : Word) (rest : List Word), s.stack = a :: rest → ∃ t, exec .ret s = .next t ∧
      t = { s with stack := rest, pc := t.pc } ∧ t.pc.toNat = (a.toNat + 2) % 65536) ∧
    (s.stack = [] → exec .ret s = .next { s with
      status := .fatal (.stackUnderflow s.pc), outputs := .displayHalt :: s.outputs })

/-- R127: a RET in any later state with the stack the CALL left restores the stack and resumes at the CALL's address + 2. -/
def Obligations.CallReturnPair : Prop :=
  ∀ (s t u : State) (nnn : Addr12), s.stack.length < s.cfg.stackSize → exec (.call nnn) s = .next t → u.stack = t.stack →
    ∃ w, exec .ret u = .next w ∧ w = { u with stack := s.stack, pc := s.pc + 2 }

/-- R29 to R31: the stack is last-in first-out, bounded by `stackSize`. -/
def Obligations.PushThenPop : Prop :=
  ∀ (s : State) (v : Word),
    (s.stack.length = s.cfg.stackSize → push v s = .error (.stackOverflow s.pc)) ∧
    (s.stack.length ≠ s.cfg.stackSize → ∃ t, push v s = .ok t ∧ t = { s with stack := v :: s.stack } ∧ pop t = .ok (v, s)) ∧
    (∀ (a : Word) (rest : List Word), s.stack = a :: rest → pop s = .ok (a, { s with stack := rest })) ∧
    (s.stack = [] → pop s = .error (.stackUnderflow s.pc))

/-! ### Arithmetic and logic -/

/-- R141 to R143: loads and the immediate add write `V[x]` alone. -/
def Obligations.LoadsAndImmediateAdd : Prop :=
  ∀ (s : State) (x y : Idx) (kk : Byte),
    (∃ t, exec (.ldByte x kk) s = .next t ∧ t = { s with v := t.v, pc := s.pc + 2 } ∧
      ∀ j, t.reg j = if j = x then kk else s.reg j) ∧
    (∃ t, exec (.addByte x kk) s = .next t ∧ t = { s with v := t.v, pc := s.pc + 2 } ∧
      ∀ j, (t.reg j).toNat = if j = x then ((s.reg x).toNat + kk.toNat) % 256 else (s.reg j).toNat) ∧
    (∃ t, exec (.ldReg x y) s = .next t ∧ t = { s with v := t.v, pc := s.pc + 2 } ∧
      ∀ j, t.reg j = if j = x then s.reg y else s.reg j)

/-- R144 to R146, R156: the logic instructions, bit by bit; VF is written only where x names it. -/
def Obligations.LogicBitByBit : Prop :=
  ∀ (s : State) (x y : Idx),
    (∃ t, exec (.orReg x y) s = .next t ∧ t = { s with v := t.v, pc := s.pc + 2 } ∧ ∀ j b,
      (t.reg j).getLsbD b = if j = x then (s.reg x).getLsbD b || (s.reg y).getLsbD b else (s.reg j).getLsbD b) ∧
    (∃ t, exec (.andReg x y) s = .next t ∧ t = { s with v := t.v, pc := s.pc + 2 } ∧ ∀ j b,
      (t.reg j).getLsbD b = if j = x then (s.reg x).getLsbD b && (s.reg y).getLsbD b else (s.reg j).getLsbD b) ∧
    (∃ t, exec (.xorReg x y) s = .next t ∧ t = { s with v := t.v, pc := s.pc + 2 } ∧ ∀ j b,
      (t.reg j).getLsbD b = if j = x then (s.reg x).getLsbD b != (s.reg y).getLsbD b else (s.reg j).getLsbD b)

/-- R147, R153: the register add, its carry written to VF last. -/
def Obligations.AddWithCarry : Prop :=
  ∀ (s : State) (x y : Idx), ∃ t, exec (.addReg x y) s = .next t ∧ t = { s with v := t.v, pc := s.pc + 2 } ∧
    ∀ j, (t.reg j).toNat =
      if j = 15 then (if (s.reg x).toNat + (s.reg y).toNat > 0xFF then 1 else 0)
      else if j = x then ((s.reg x).toNat + (s.reg y).toNat) % 256
      else (s.reg j).toNat

/-- R148, R150, R153, R157: both subtractions, their not-borrow written to VF last. -/
def Obligations.SubtractWithNotBorrow : Prop :=
  ∀ (s : State) (x y : Idx),
    (∃ t, exec (.subReg x y) s = .next t ∧ t = { s with v := t.v, pc := s.pc + 2 } ∧
      ∀ j, ((t.reg j).toNat : Int) =
        if j = 15 then (if (s.reg x).toNat ≥ (s.reg y).toNat then 1 else 0)
        else if j = x then ((s.reg x).toNat - (s.reg y).toNat : Int) % 256
        else (s.reg j).toNat) ∧
    (∃ t, exec (.subn x y) s = .next t ∧ t = { s with v := t.v, pc := s.pc + 2 } ∧
      ∀ j, ((t.reg j).toNat : Int) =
        if j = 15 then (if (s.reg y).toNat ≥ (s.reg x).toNat then 1 else 0)
        else if j = x then ((s.reg y).toNat - (s.reg x).toNat : Int) % 256
        else (s.reg j).toNat)

/-- R149, R151, R155, R43: both shifts, of `V[y]` in CHIP_8 and of `V[x]` in the other modes. -/
def Obligations.ShiftsByMode : Prop :=
  ∀ (s : State) (x y : Idx) (src : Nat),
    src = (if s.cfg.systemMode = .chip8 then (s.reg y).toNat else (s.reg x).toNat) →
    (∃ t, exec (.shr x y) s = .next t ∧ t = { s with v := t.v, pc := s.pc + 2 } ∧
      ∀ j, (t.reg j).toNat = if j = 15 then src % 2 else if j = x then src / 2 else (s.reg j).toNat) ∧
    (∃ t, exec (.shl x y) s = .next t ∧ t = { s with v := t.v, pc := s.pc + 2 } ∧
      ∀ j, (t.reg j).toNat = if j = 15 then src / 128 else if j = x then src * 2 % 256 else (s.reg j).toNat)

/-- R158: RND stores a byte ANDed with kk, so bits outside kk are 0; `draws` is the model's own counter (log entry 7). The
byte is a free value, so nothing is said of it. -/
def Obligations.RandomByteIsMasked : Prop :=
  ∀ (s : State) (x : Idx) (kk : Byte), ∃ t r, exec (.rnd x kk) s = .next t ∧
    t = { s with v := t.v, pc := s.pc + 2, draws := s.draws + 1 } ∧
    (∀ j, t.reg j = if j = x then r &&& kk else s.reg j) ∧ ∀ b, kk.getLsbD b = false → (t.reg x).getLsbD b = false

/-! ### Skips -/

/-- R171 to R175: the comparing skips move `pc` by 4 or 2 and change nothing else. -/
def Obligations.CompareSkips : Prop :=
  ∀ (s : State) (x y : Idx) (kk : Byte),
    (exec (.seByte x kk) s = .next { s with pc := if (s.reg x).toNat = kk.toNat then s.pc + 4 else s.pc + 2 }) ∧
    (exec (.sneByte x kk) s = .next { s with pc := if (s.reg x).toNat = kk.toNat then s.pc + 2 else s.pc + 4 }) ∧
    (exec (.seReg x y) s = .next { s with pc := if (s.reg x).toNat = (s.reg y).toNat then s.pc + 4 else s.pc + 2 }) ∧
    (exec (.sneReg x y) s = .next { s with pc := if (s.reg x).toNat = (s.reg y).toNat then s.pc + 2 else s.pc + 4 })

/-- R176 to R178: the key skips test the key that `V[x]` names, and fault on an index above 15, which is not masked. The record
of the `halt()` call (R288) is on the model's own field (log entry 8), and that the fault is a next state is log entry 3. -/
def Obligations.KeySkips : Prop :=
  ∀ (s : State) (x : Idx),
    (∀ k : Idx, (s.reg x).toNat = k.val →
      exec (.skp x) s = .next { s with pc := if s.key[k] = true then s.pc + 4 else s.pc + 2 } ∧
      exec (.sknp x) s = .next { s with pc := if s.key[k] = true then s.pc + 2 else s.pc + 4 }) ∧
    (0xF < (s.reg x).toNat → ∀ i ∈ [Instr.skp x, Instr.sknp x], exec i s = .next { s with
      status := .fatal (.outOfRange (s.reg x).toNat .keyTest), outputs := .displayHalt :: s.outputs })

/-! ### Display -/

/-- R192: CLS makes every pixel dark and clears the collision flag; VF and everything else is left alone. -/
def Obligations.ClsDarkensDisplay : Prop :=
  ∀ s : State, ∃ t, exec .cls s = .next t ∧ t = { s with fb := t.fb, collision := false, pc := s.pc + 2 } ∧
    t.fb.length = s.cfg.displayHeight ∧ ∀ row ∈ t.fb, row.length = s.cfg.displayWidth ∧ ∀ p ∈ row, p = false

/-- R193 to R198, R200: DRW against the sprite as a whole, with no loop. A pixel flips as often as the sprite has a 1 bit for
it. VF is 1 exactly if a lit pixel turned dark (a lit one was flipped, or a dark one twice) or the collision flag stood, which
the invariant rules out. The flag is clear again, and every other register and field is unchanged. On a grid of width or
height 0, where R196 and R197 divide by 0, there is no pixel and VF says only whether the flag stood: the model's choice (log
entry 14). -/
def Obligations.DrwDrawsTheSprite : Prop :=
  ∀ (s : State) (x y n : Idx), FbSized s → ¬(n = 0 ∧ s.cfg.systemMode = .superChip) →
    (n.val = 0 ∨ s.i.toNat + n.val ≤ s.cfg.memorySize) →
    ∀ hits : Nat → Nat → Nat,
      hits = spriteHits s.cfg ((s.reg x).toNat % s.cfg.displayWidth) ((s.reg y).toNat % s.cfg.displayHeight) n.val
        (fun r => s.byteAt (s.i.toNat + r)) →
      ∃ t, exec (.drw x y n) s = .next t ∧
        t = { s with v := t.v, fb := t.fb, collision := false, pc := s.pc + 2 } ∧ FbSized t ∧
        (∀ py px, py < s.cfg.displayHeight → px < s.cfg.displayWidth →
          getPixel t.fb py px = (getPixel s.fb py px != decide (hits py px % 2 = 1))) ∧
        (∀ j, j ≠ 15 → t.reg j = s.reg j) ∧
        (t.reg 15 = 0 ∨ t.reg 15 = 1) ∧
        (t.reg 15 = 1 ↔ s.collision = true ∨ ∃ py px, py < s.cfg.displayHeight ∧ px < s.cfg.displayWidth ∧
          ((getPixel s.fb py px = true ∧ 1 ≤ hits py px) ∨ (getPixel s.fb py px = false ∧ 2 ≤ hits py px)))

/-- R201: `Dxy0` draws nothing and gives VF = 0 in CHIP_8 and CHIP_48 (with the collision flag clear, as the invariant says).
In SUPER_CHIP, where no word decodes to it (R108), the model treats the term as that word (log entry 12), with the record of
the `halt()` call on the model's own field (log entry 8), and that the fault is a next state is log entry 3. -/
def Obligations.DrwOfZeroRows : Prop :=
  ∀ (s : State) (x y : Idx), s.collision = false →
    (s.cfg.systemMode ≠ .superChip → ∃ t, exec (.drw x y 0) s = .next t ∧
      t = { s with v := t.v, pc := s.pc + 2 } ∧ ∀ j, t.reg j = if j = 15 then 0 else s.reg j) ∧
    (s.cfg.systemMode = .superChip → s.cfg.unknownOpcodePolicy = .skip →
      exec (.drw x y 0) s = .next { s with pc := s.pc + 2 }) ∧
    (s.cfg.systemMode = .superChip → s.cfg.unknownOpcodePolicy = .halt →
      ∃ op : Word, op.toNat = 0xD000 + 256 * x.val + 16 * y.val ∧ exec (.drw x y 0) s = .next { s with
        status := .fatal (.unknownInstruction s.pc op), outputs := .displayHalt :: s.outputs })

/-- R202: the first sprite byte out of range faults the whole DRW, with nothing drawn. The record of the `halt()` call (R288)
is on the model's own field (log entry 8), and that the fault is a next state is log entry 3. -/
def Obligations.DrwFaultIsPrecise : Prop :=
  ∀ (s : State) (x y n : Idx) (r : Nat), r < n.val → s.cfg.memorySize ≤ s.i.toNat + r →
    (∀ r', r' < r → s.i.toNat + r' < s.cfg.memorySize) →
    exec (.drw x y n) s = .next { s with
      status := .fatal (.outOfRange (s.i.toNat + r) .read), outputs := .displayHalt :: s.outputs }

/-- R203: drawing the same sprite twice at the same coordinates restores every pixel, for every size of grid, edge rule and
row count; and the second draw reports a collision exactly if the first one lit a pixel, where no pixel is hit twice. On a grid
that was dark before, that is exactly if the sprite has a 1 bit on a drawn row, as the rule's own sentence has it; where a
pixel was lit before, that sentence contradicts R194 and R198 (log entry 16). On a grid of width or height 0, where R196 and
R197 divide by 0, there is no pixel, and that both draws complete there is the model's choice (log entry 14). -/
def Obligations.DrawTwiceRestoresPixels : Prop :=
  ∀ (s t : State) (x y n : Idx), FbSized s → ¬(n = 0 ∧ s.cfg.systemMode = .superChip) →
    (n.val = 0 ∨ s.i.toNat + n.val ≤ s.cfg.memorySize) →
    exec (.drw x y n) s = .next t → t.reg x = s.reg x → t.reg y = s.reg y →
    ∃ u, exec (.drw x y n) t = .next u ∧ u.fb = s.fb ∧
      (8 ≤ s.cfg.displayWidth → (n.val ≤ s.cfg.displayHeight ∨ s.cfg.verticalEdge = .clip) →
        (u.reg 15 = 1 ↔ ∃ py px, py < s.cfg.displayHeight ∧ px < s.cfg.displayWidth ∧
          getPixel s.fb py px = false ∧ getPixel t.fb py px = true) ∧
        ((∀ py px, getPixel s.fb py px = false) →
          (u.reg 15 = 1 ↔ ∃ r k, r < n.val ∧ k < 8 ∧ (s.byteAt (s.i.toNat + r)).getLsbD k = true ∧
            (s.cfg.verticalEdge = .wrap ∨ (s.reg y).toNat % s.cfg.displayHeight + r < s.cfg.displayHeight))))

/-! ### Index register and memory -/

/-- R221 to R223, R24: the index register is written and nothing else. R223 gives LD F no modulus; that its sum is taken modulo
2^16, since `I` is a 16-bit register (R24), is log entry 23, and no legal configuration reaches it (R8). -/
def Obligations.IndexRegisterWrites : Prop :=
  ∀ (s : State) (nnn : Addr12) (x : Idx),
    (∃ t, exec (.ldI nnn) s = .next t ∧ t = { s with i := t.i, pc := s.pc + 2 } ∧ t.i.toNat = nnn.toNat) ∧
    (∃ t, exec (.addIVx x) s = .next t ∧ t = { s with i := t.i, pc := s.pc + 2 } ∧
      t.i.toNat = (s.i.toNat + (s.reg x).toNat) % 65536) ∧
    (∃ t, exec (.ldFVx x) s = .next t ∧ t = { s with i := t.i, pc := s.pc + 2 } ∧
      t.i.toNat = (s.cfg.fontBaseAddress.toNat + 5 * ((s.reg x).toNat % 16)) % 65536)

/-- R224: the three decimal digits at `I`; every other byte and every other field is unchanged. The canonical form of memory is
the model's own representation (log entry 9). -/
def Obligations.BcdStoresDigits : Prop :=
  ∀ (s : State) (x : Idx), MemCanonical s → s.i.toNat + 2 < s.cfg.memorySize →
    ∃ t, exec (.ldBVx x) s = .next t ∧ t = { s with mem := t.mem, pc := s.pc + 2 } ∧
      (t.byteAt s.i.toNat).toNat = (s.reg x).toNat / 100 ∧
      (t.byteAt (s.i.toNat + 1)).toNat = (s.reg x).toNat / 10 % 10 ∧
      (t.byteAt (s.i.toNat + 2)).toNat = (s.reg x).toNat % 10 ∧
      ∀ a, (a < s.i.toNat ∨ s.i.toNat + 2 < a) → t.byteAt a = s.byteAt a

/-- R225, R227: the registers `V[0..x]` at `I`, and `I` moved past them in CHIP_8 and CHIP_48 only. The canonical form of memory
is the model's own representation (log entry 9). -/
def Obligations.StoreRegistersAtIndex : Prop :=
  ∀ (s : State) (x : Idx), MemCanonical s → s.i.toNat + x.val < s.cfg.memorySize →
    ∃ t, exec (.storeRegs x) s = .next t ∧ t = { s with mem := t.mem, i := t.i, pc := s.pc + 2 } ∧
      (∀ r : Idx, r ≤ x → t.byteAt (s.i.toNat + r.val) = s.reg r) ∧
      (∀ a, (a < s.i.toNat ∨ s.i.toNat + x.val < a) → t.byteAt a = s.byteAt a) ∧
      t.i.toNat = if s.cfg.systemMode = .superChip then s.i.toNat else (s.i.toNat + x.val + 1) % 65536

/-- R226, R227: the registers `V[0..x]` from `I`, and `I` moved past them in CHIP_8 and CHIP_48 only; no byte of memory
changes. -/
def Obligations.LoadRegistersFromIndex : Prop :=
  ∀ (s : State) (x : Idx), s.i.toNat + x.val < s.cfg.memorySize →
    ∃ t, exec (.loadRegs x) s = .next t ∧ t = { s with v := t.v, i := t.i, pc := s.pc + 2 } ∧
      (∀ j : Idx, t.reg j = if j ≤ x then s.byteAt (s.i.toNat + j.val) else s.reg j) ∧
      t.i.toNat = if s.cfg.systemMode = .superChip then s.i.toNat else (s.i.toNat + x.val + 1) % 65536

/-- R224 to R226: the first address out of range faults the whole transfer, with nothing written. The record of the `halt()`
call (R288) is on the model's own field (log entry 8), and that the fault is a next state is log entry 3. -/
def Obligations.BlockFaultsArePrecise : Prop :=
  ∀ (s : State) (x : Idx) (r : Nat), s.cfg.memorySize ≤ s.i.toNat + r →
    (∀ r', r' < r → s.i.toNat + r' < s.cfg.memorySize) →
    (r < 3 → exec (.ldBVx x) s = .next { s with
      status := .fatal (.outOfRange (s.i.toNat + r) .write), outputs := .displayHalt :: s.outputs }) ∧
    (r ≤ x.val → exec (.storeRegs x) s = .next { s with
      status := .fatal (.outOfRange (s.i.toNat + r) .write), outputs := .displayHalt :: s.outputs }) ∧
    (r ≤ x.val → exec (.loadRegs x) s = .next { s with
      status := .fatal (.outOfRange (s.i.toNat + r) .read), outputs := .displayHalt :: s.outputs })

/-- A block stored by Fx55 and read back by Fx65 from the same address, in any later state with that memory, gives the stored
registers (R66, R225, R226). The canonical form of memory is the model's own representation (log entry 9). -/
def Obligations.StoreThenLoadRestoresRegisters : Prop :=
  ∀ (s t u : State) (x : Idx), MemCanonical s → s.i.toNat + x.val < s.cfg.memorySize → exec (.storeRegs x) s = .next t →
    u.mem = t.mem → u.cfg = t.cfg → u.i = s.i →
    ∃ w, exec (.loadRegs x) u = .next w ∧ ∀ j : Idx, j ≤ x → w.reg j = s.reg j

/-- R64 to R66: one byte of memory, written and read back, with the range check; and R82: the same for the block transfers that
the instructions use, which are all or nothing, report the lowest failing address, and for one byte are the byte operations.
The canonical form of memory is the model's own representation (log entry 9). -/
def Obligations.MemoryReadAfterWrite : Prop :=
  (∀ (s : State) (a : Nat) (b : Byte), MemCanonical s →
    (a < s.cfg.memorySize → ∃ t, memWrite a b s = .ok t ∧ t = { s with mem := t.mem } ∧ MemCanonical t ∧
      memRead a t = .ok b ∧ (∀ a', a' ≠ a → memRead a' t = memRead a' s) ∧ memRead a s = .ok (s.byteAt a)) ∧
    (s.cfg.memorySize ≤ a → memWrite a b s = .error (.outOfRange a .write) ∧ memRead a s = .error (.outOfRange a .read))) ∧
  (∀ (s : State) (a : Nat) (bs : List Byte), MemCanonical s →
    (a + bs.length ≤ s.cfg.memorySize → ∃ t, writeBlock a bs s = .ok t ∧ t = { s with mem := t.mem } ∧ MemCanonical t ∧
      readBlock a bs.length t = .ok bs ∧ ∀ a', (a' < a ∨ a + bs.length ≤ a') → memRead a' t = memRead a' s) ∧
    (∀ r, r < bs.length → s.cfg.memorySize ≤ a + r → (∀ r', r' < r → a + r' < s.cfg.memorySize) →
      writeBlock a bs s = .error (.outOfRange (a + r) .write) ∧
      readBlock a bs.length s = .error (.outOfRange (a + r) .read))) ∧
  (∀ (s : State) (a : Nat) (b : Byte), writeBlock a [b] s = memWrite a b s ∧
    readBlock a 1 s = (memRead a s).map fun c => [c])

/-! ### Timers, tone and keys -/

/-- R241, R243: the delay timer is read into `V[x]` and written from it. -/
def Obligations.DelayTimerAccess : Prop :=
  ∀ (s : State) (x : Idx),
    (∃ t, exec (.ldVxDT x) s = .next t ∧ t = { s with v := t.v, pc := s.pc + 2 } ∧
      ∀ j, t.reg j = if j = x then s.dt else s.reg j) ∧
    exec (.ldDTVx x) s = .next { s with dt := s.reg x, pc := s.pc + 2 }

/-- R244, R278, R279: the sound timer is written, and the tone is told only of changes between 0 and a positive value. The calls
to the tone are kept in the model's own field `outputs`, newest first (log entry 8). -/
def Obligations.SoundTimerWrite : Prop :=
  ∀ (s : State) (x : Idx),
    (s.st.toNat = 0 → 0 < (s.reg x).toNat → exec (.ldSTVx x) s = .next { s with
      st := s.reg x, toneOn := true, outputs := .toneStart :: s.outputs, pc := s.pc + 2 }) ∧
    (0 < s.st.toNat → (s.reg x).toNat = 0 → exec (.ldSTVx x) s = .next { s with
      st := s.reg x, toneOn := false, outputs := .toneStop :: s.outputs, pc := s.pc + 2 }) ∧
    ((s.st.toNat = 0 ↔ (s.reg x).toNat = 0) → exec (.ldSTVx x) s = .next { s with st := s.reg x, pc := s.pc + 2 })

/-- R242: with no key active the CPU holds and nothing changes; otherwise an active key is stored. Which one is a free value;
`draws` is the model's own counter (log entries 6 and 7). -/
def Obligations.KeyWaitHoldsOrStoresKey : Prop :=
  ∀ (s : State) (x : Idx),
    ((∀ k : Idx, s.key[k] = false) → exec (.ldVxK x) s = .next s) ∧
    ((∃ k : Idx, s.key[k] = true) → ∃ t, ∃ k : Idx, exec (.ldVxK x) s = .next t ∧ s.key[k] = true ∧
      t = { s with v := t.v, pc := s.pc + 2, draws := s.draws + 1 } ∧
      ∀ j, (t.reg j).toNat = if j = x then k.val else (s.reg j).toNat)

/-- R276 to R278, R282: one timer step ticks both timers, each stopping at 0, and tells the tone when the sound timer
reaches 0. The turn taken off the agenda and the record of the call are on the model's own fields (log entries 4 and 8). -/
def Obligations.TimerStepTicksBoth : Prop :=
  ∀ s : State, TurnOf .timer s → ∃ t, step s = .next t ∧
    t = { s with dt := t.dt, st := t.st, toneOn := t.toneOn, outputs := t.outputs, agenda := s.agenda.tail } ∧
    t.dt.toNat = s.dt.toNat - 1 ∧ t.st.toNat = s.st.toNat - 1 ∧
    (s.st.toNat = 1 → t.toneOn = false ∧ t.outputs = .toneStop :: s.outputs) ∧
    (s.st.toNat ≠ 1 → t.toneOn = s.toneOn ∧ t.outputs = s.outputs)

/-- R204, R283: a display step hands over the framebuffer and changes no state of the block. The record of the `update` call and
the turn taken off the agenda are on the model's own fields (log entries 8 and 4). -/
def Obligations.DisplayStepOnlyReads : Prop :=
  ∀ s : State, TurnOf .display s →
    step s = .next { s with outputs := .displayUpdate s.fb :: s.outputs, agenda := s.agenda.tail }

/-- R284: a host step sets one key and nothing else. The turn taken off the agenda is the model's own (log entry 4). -/
def Obligations.HostSetsOneKey : Prop :=
  ∀ (s : State) (k : Idx) (b : Bool), TurnOf (.hostKey k b) s → ∃ t, step s = .next t ∧
    t = { s with key := t.key, agenda := s.agenda.tail } ∧ ∀ j : Idx, t.key[j] = if j = k then b else s.key[j]

/-- R285, R288: the halt signal ends the session and freezes the rest of the state. The record of the `halt()` call and the turn
taken off the agenda are on the model's own fields (log entries 8 and 4). -/
def Obligations.HostHaltEndsSession : Prop :=
  ∀ s : State, TurnOf .hostHalt s →
    step s = .next { s with status := .halted, outputs := .displayHalt :: s.outputs, agenda := s.agenda.tail }

/-- R276, R280: in a run in which the CPU and the halt signal have no step, after `n` steps the timers have counted down by the
number of timer steps among them, stopping at 0, and nothing the CPU works on has changed. The schedule is the model's form of
R286's interleaving (log entry 4), and the clause on `draws` is on the model's own counter (log entry 7). -/
def Obligations.TimersCountDownBetweenInstructions : Prop :=
  ∀ (s : State) (σ : Schedule) (n : Nat), LegalByR8 s.cfg → s.status = .running →
    (∀ m, m < n → σ m ≠ .cpu ∧ σ m ≠ .hostHalt) →
    ∃ t, runUnder σ s n = .next t ∧
      t.dt.toNat = s.dt.toNat - ((List.range n).map σ).count .timer ∧
      t.st.toNat = s.st.toNat - ((List.range n).map σ).count .timer ∧
      t.v = s.v ∧ t.i = s.i ∧ t.pc = s.pc ∧ t.stack = s.stack ∧ t.fb = s.fb ∧ t.collision = s.collision ∧ t.mem = s.mem ∧
      t.cfg = s.cfg ∧ t.status = .running ∧ t.draws = s.draws

/-- R242, R286, R294: while the CPU holds in a key wait and no key is pressed, the timers run out under every weakly fair
schedule, with the tone stopped, and the CPU's own state never moves. The schedule and its fairness are the model's form of
R286 (log entries 4 and 19), and the clause on `draws` is on the model's own counter (log entry 7). -/
def Obligations.TimersRunOutDuringKeyWait : Prop :=
  ∀ (s : State) (σ : Schedule) (op : Word) (x : Idx), s.Inv → LegalByR8 s.cfg → s.status = .running → OpcodeAtPc s op →
    decode op s.cfg.systemMode = .ok (.ldVxK x) → (∀ k : Idx, s.key[k] = false) → WeaklyFair σ →
    (∀ m, σ m ≠ .hostHalt ∧ ∀ k, σ m ≠ .hostKey k true) →
    ∃ N, ∀ n, N ≤ n → ∃ t, runUnder σ s n = .next t ∧ t.dt = 0 ∧ t.st = 0 ∧ t.toneOn = false ∧ t.status = .running ∧
      t.pc = s.pc ∧ t.v = s.v ∧ t.i = s.i ∧ t.stack = s.stack ∧ t.fb = s.fb ∧ t.mem = s.mem ∧ t.draws = s.draws

/-! ### The whole machine -/

/-- R34 to R36, R28, R61: every step of every agent keeps the invariant: the stack's bound, the tone following the sound timer,
the collision flag clear, the grid's size, memory in its canonical form (the model's own representation, log entry 9). -/
def Obligations.StepKeepsInvariant : Prop :=
  ∀ s t : State, s.Inv → step s = .next t → t.Inv

/-- R28, R34 to R36, R48, R61, R301: the invariant holds when a session starts, whatever the configuration and the ROM, and so in
the reset state. For a ROM that does not fit, what the stack, the timers, the tone, the collision flag and the framebuffer hold
is the model's choice (log entry 18). The canonical form of memory is the model's own representation (log entry 9). -/
def Obligations.SessionStartMeetsInvariant : Prop :=
  State.reset.Inv ∧ ∀ (cfg : Config) (rom : List Byte) (t : State), startSession cfg rom = .next t → t.Inv

/-- R39, R7: the configuration, with the compatibility mode in it, is read-only. -/
def Obligations.ConfigurationIsReadOnly : Prop :=
  ∀ s t : State, step s = .next t → t.cfg = s.cfg

/-- R261, R267: an instruction that faults changes nothing but the status and the record of the `halt()` call (R288), which is
on the model's own field (log entry 8), and that the fault is a next state is log entry 3. The terms no word decodes to are
among the instructions (log entry 12). -/
def Obligations.FaultsArePrecise : Prop :=
  ∀ (i : Instr) (s t : State) (f : SessionFault), s.status = .running → exec i s = .next t → t.status = .fatal f →
    t = { s with status := .fatal f, outputs := .displayHalt :: s.outputs }

/-- R26: after an instruction that neither faults nor holds, `pc` has moved by 2, by 4 for a skip, or to a target for a jump,
call or return. The terms no word decodes to are among the instructions (log entry 12). -/
def Obligations.PcMovesAsTheRulesSay : Prop :=
  ∀ (i : Instr) (s t : State), exec i s = .next t → ¬ Faulted t →
    t.pc = s.pc + 2 ∨
    (t.pc = s.pc + 4 ∧ ((∃ x kk, i = .seByte x kk ∨ i = .sneByte x kk) ∨ (∃ x y, i = .seReg x y ∨ i = .sneReg x y) ∨
      ∃ x, i = .skp x ∨ i = .sknp x)) ∨
    (i = .ret ∨ ∃ nnn, i = .jp nnn ∨ i = .call nnn ∨ i = .jpV0 nnn) ∨
    (t = s ∧ ∃ x, i = .ldVxK x)

/-- R22, R23, R49: an instruction changes no general register but those its row of R49 names, VF among them. The terms no word
decodes to are among the instructions (log entry 12). -/
def Obligations.RegistersChangeOnlyWhereNamed : Prop :=
  ∀ (i : Instr) (s t : State) (j : Idx), exec i s = .next t → writesReg i j = false → t.reg j = s.reg j

/-- R49's other columns: which instructions change `I`, the stack, the timers, the display and its collision flag, the keys and
memory. The terms no word decodes to are among the instructions (log entry 12). -/
def Obligations.OtherStateChangesOnlyWhereNamed : Prop :=
  ∀ (i : Instr) (s t : State), exec i s = .next t →
    (t.i ≠ s.i → (∃ nnn, i = .ldI nnn) ∨ ∃ x, i = .addIVx x ∨ i = .ldFVx x ∨ i = .storeRegs x ∨ i = .loadRegs x) ∧
    (t.stack ≠ s.stack → i = .ret ∨ ∃ nnn, i = .call nnn) ∧
    (t.dt ≠ s.dt → ∃ x, i = .ldDTVx x) ∧
    (t.st ≠ s.st ∨ t.toneOn ≠ s.toneOn → ∃ x, i = .ldSTVx x) ∧
    (t.fb ≠ s.fb ∨ t.collision ≠ s.collision → i = .cls ∨ ∃ x y n, i = .drw x y n) ∧
    t.key = s.key ∧
    ((∃ a, t.byteAt a ≠ s.byteAt a) → ∃ x, i = .ldBVx x ∨ i = .storeRegs x)

/-- R33, R280: nothing but the sound timer, the tone and what was emitted (the model's own record, log entry 8) depends on them:
under every instruction, two states that differ there alone answer next states that differ there alone. That an instruction
that faults answers a next state too is log entry 3, and that the terms no word decodes to have a meaning is log entry 12. -/
def Obligations.SoundTimerIsUnobservable : Prop :=
  ∀ (i : Instr) (s : State) (b : Byte) (on : Bool) (outs : List Output), ∃ t t',
    exec i s = .next t ∧ exec i { s with st := b, toneOn := on, outputs := outs } = .next t' ∧
    t' = { t with st := t'.st, toneOn := t'.toneOn, outputs := t'.outputs }
end

