-- ==== Sys2Proof/Laws/Decode.lean ====
section
/-! SUPPORT. The fields of a word built from fields, and a word rebuilt from its fields (rules R92, R104): what the round trips
between decoder and encoder rest on. Both sides are put as numbers first. -/

namespace Sys2Proof

/-! ### Nibbles and indices -/

@[simp] theorem idxOfNibble_nibbleOfIdx (i : Idx) : idxOfNibble (nibbleOfIdx i) = i := by
  apply Fin.ext
  simp only [idxOfNibble, nibbleOfIdx, BitVec.toNat_ofNat]
  exact Nat.mod_eq_of_lt i.isLt

@[simp] theorem nibbleOfIdx_idxOfNibble (b : BitVec 4) : nibbleOfIdx (idxOfNibble b) = b := by
  apply BitVec.eq_of_toNat_eq
  simp only [idxOfNibble, nibbleOfIdx, BitVec.toNat_ofNat]
  exact Nat.mod_eq_of_lt b.isLt

theorem toNat_nibbleOfIdx (i : Idx) : (nibbleOfIdx i).toNat = i.val := by
  simp only [nibbleOfIdx, BitVec.toNat_ofNat]
  exact Nat.mod_eq_of_lt i.isLt

/-! ### Fields as numbers -/

theorem toNat_slice (op : Word) (lo len : Nat) : (op.extractLsb' lo len).toNat = op.toNat / 2 ^ lo % 2 ^ len := by
  rw [BitVec.extractLsb'_toNat, Nat.shiftRight_eq_div_pow]

theorem toNat_fieldS (op : Word) : (fieldS op).toNat = op.toNat / 4096 := by
  have := op.isLt
  rw [fieldS, toNat_slice]; omega

theorem val_fieldX (op : Word) : (fieldX op).val = op.toNat / 256 % 16 := toNat_slice op 8 4

theorem val_fieldY (op : Word) : (fieldY op).val = op.toNat / 16 % 16 := toNat_slice op 4 4

theorem val_fieldN (op : Word) : (fieldN op).val = op.toNat % 16 := by
  have h : (fieldN op).val = op.toNat / 2 ^ 0 % 2 ^ 4 := toNat_slice op 0 4
  omega

theorem toNat_fieldKK (op : Word) : (fieldKK op).toNat = op.toNat % 256 := by
  simp [fieldKK]

theorem toNat_fieldNNN (op : Word) : (fieldNNN op).toNat = op.toNat % 4096 := by
  simp [fieldNNN]

theorem toNat_concat {n m : Nat} (a : BitVec n) (b : BitVec m) : (a ++ b).toNat = a.toNat * 2 ^ m + b.toNat := by
  rw [BitVec.toNat_append, ← Nat.shiftLeft_add_eq_or_of_lt b.isLt, Nat.shiftLeft_eq]

theorem toNat_wordNNN (s : BitVec 4) (nnn : Addr12) : (wordNNN s nnn).toNat = s.toNat * 4096 + nnn.toNat :=
  toNat_concat s nnn

theorem toNat_wordXKK (s : BitVec 4) (x : Idx) (kk : Byte) :
    (wordXKK s x kk).toNat = s.toNat * 4096 + x.val * 256 + kk.toNat := by
  have h : (wordXKK s x kk).toNat = (s ++ nibbleOfIdx x).toNat * 2 ^ 8 + kk.toNat := toNat_concat _ kk
  rw [h, toNat_concat, toNat_nibbleOfIdx]; omega

theorem toNat_wordXYN (s : BitVec 4) (x y n : Idx) :
    (wordXYN s x y n).toNat = s.toNat * 4096 + x.val * 256 + y.val * 16 + n.val := by
  have h : (wordXYN s x y n).toNat = (s ++ nibbleOfIdx x ++ nibbleOfIdx y).toNat * 2 ^ 4 + (nibbleOfIdx n).toNat :=
    toNat_concat _ (nibbleOfIdx n)
  rw [h, toNat_concat, toNat_concat, toNat_nibbleOfIdx, toNat_nibbleOfIdx, toNat_nibbleOfIdx]; omega

/-! ### Fields of words -/

@[simp] theorem fieldS_wordNNN (s : BitVec 4) (nnn : Addr12) : fieldS (wordNNN s nnn) = s := by
  apply BitVec.eq_of_toNat_eq; rw [toNat_fieldS, toNat_wordNNN]; omega

@[simp] theorem fieldNNN_wordNNN (s : BitVec 4) (nnn : Addr12) : fieldNNN (wordNNN s nnn) = nnn := by
  apply BitVec.eq_of_toNat_eq; rw [toNat_fieldNNN, toNat_wordNNN]; omega

@[simp] theorem fieldS_wordXKK (s : BitVec 4) (x : Idx) (kk : Byte) : fieldS (wordXKK s x kk) = s := by
  apply BitVec.eq_of_toNat_eq; rw [toNat_fieldS, toNat_wordXKK]; omega

@[simp] theorem fieldX_wordXKK (s : BitVec 4) (x : Idx) (kk : Byte) : fieldX (wordXKK s x kk) = x := by
  apply Fin.ext; rw [val_fieldX, toNat_wordXKK]; omega

@[simp] theorem fieldKK_wordXKK (s : BitVec 4) (x : Idx) (kk : Byte) : fieldKK (wordXKK s x kk) = kk := by
  apply BitVec.eq_of_toNat_eq; rw [toNat_fieldKK, toNat_wordXKK]; omega

@[simp] theorem fieldS_wordXYN (s : BitVec 4) (x y n : Idx) : fieldS (wordXYN s x y n) = s := by
  apply BitVec.eq_of_toNat_eq; rw [toNat_fieldS, toNat_wordXYN]; omega

@[simp] theorem fieldX_wordXYN (s : BitVec 4) (x y n : Idx) : fieldX (wordXYN s x y n) = x := by
  apply Fin.ext; rw [val_fieldX, toNat_wordXYN]; omega

@[simp] theorem fieldY_wordXYN (s : BitVec 4) (x y n : Idx) : fieldY (wordXYN s x y n) = y := by
  apply Fin.ext; rw [val_fieldY, toNat_wordXYN]; omega

@[simp] theorem fieldN_wordXYN (s : BitVec 4) (x y n : Idx) : fieldN (wordXYN s x y n) = n := by
  apply Fin.ext; rw [val_fieldN, toNat_wordXYN]; omega

/-! ### Words from their fields -/

theorem wordNNN_fields (op : Word) : wordNNN (fieldS op) (fieldNNN op) = op := by
  apply BitVec.eq_of_toNat_eq; rw [toNat_wordNNN, toNat_fieldS, toNat_fieldNNN]; omega

theorem wordXKK_fields (op : Word) : wordXKK (fieldS op) (fieldX op) (fieldKK op) = op := by
  apply BitVec.eq_of_toNat_eq; rw [toNat_wordXKK, toNat_fieldS, val_fieldX, toNat_fieldKK]; omega

theorem wordXYN_fields (op : Word) : wordXYN (fieldS op) (fieldX op) (fieldY op) (fieldN op) = op := by
  apply BitVec.eq_of_toNat_eq; rw [toNat_wordXYN, toNat_fieldS, val_fieldX, val_fieldY, val_fieldN]; omega

/-- The two bytes of a word, put together again (R67). -/
@[simp] theorem wordOfBytes_high_low (op : Word) : wordOfBytes (highByte op) (lowByte op) = op := by
  apply BitVec.eq_of_toNat_eq
  have h : (wordOfBytes (highByte op) (lowByte op)).toNat = (highByte op).toNat * 2 ^ 8 + (lowByte op).toNat :=
    toNat_concat _ _
  have := op.isLt
  rw [h, highByte, lowByte, toNat_slice, toNat_slice]; omega

/-! ### Masks (R104) -/

theorem nibble_and_ones (s : BitVec 4) : s &&& 0xF#4 = s := by revert s; decide

theorem byte_and_ones (kk : Byte) : kk &&& 0xFF#8 = kk := BitVec.and_allOnes

theorem wordNNN_mask (s : BitVec 4) (nnn : Addr12) : wordNNN s nnn &&& 0xF000 = wordNNN s 0 := by
  have h : (s ++ nnn) &&& (0xF#4 ++ 0x000#12) = (s &&& 0xF#4) ++ (nnn &&& 0#12) := by rw [BitVec.and_append]
  rw [nibble_and_ones, BitVec.and_zero] at h; exact h

theorem wordXKK_mask (s : BitVec 4) (x : Idx) (kk : Byte) : wordXKK s x kk &&& 0xF000 = wordXKK s 0 0 := by
  have h : (s ++ nibbleOfIdx x ++ kk) &&& (0xF#4 ++ 0x0#4 ++ 0x00#8) =
      ((s &&& 0xF#4) ++ (nibbleOfIdx x &&& 0#4)) ++ (kk &&& 0#8) := by rw [BitVec.and_append, BitVec.and_append]
  rw [nibble_and_ones, BitVec.and_zero, BitVec.and_zero] at h; exact h

theorem wordXKK_subMask (s : BitVec 4) (x : Idx) (kk : Byte) : wordXKK s x kk &&& 0xF0FF = wordXKK s 0 kk := by
  have h : (s ++ nibbleOfIdx x ++ kk) &&& (0xF#4 ++ 0x0#4 ++ 0xFF#8) =
      ((s &&& 0xF#4) ++ (nibbleOfIdx x &&& 0#4)) ++ (kk &&& 0xFF#8) := by rw [BitVec.and_append, BitVec.and_append]
  rw [nibble_and_ones, byte_and_ones, BitVec.and_zero] at h; exact h

theorem wordXYN_mask (s : BitVec 4) (x y n : Idx) : wordXYN s x y n &&& 0xF000 = wordXYN s 0 0 0 := by
  have h : (s ++ nibbleOfIdx x ++ nibbleOfIdx y ++ nibbleOfIdx n) &&& (0xF#4 ++ 0x0#4 ++ 0x0#4 ++ 0x0#4) =
      (((s &&& 0xF#4) ++ (nibbleOfIdx x &&& 0#4)) ++ (nibbleOfIdx y &&& 0#4)) ++ (nibbleOfIdx n &&& 0#4) := by
    rw [BitVec.and_append, BitVec.and_append, BitVec.and_append]
  rw [nibble_and_ones, BitVec.and_zero, BitVec.and_zero, BitVec.and_zero] at h; exact h

theorem wordXYN_subMask (s : BitVec 4) (x y n : Idx) : wordXYN s x y n &&& 0xF00F = wordXYN s 0 0 n := by
  have h : (s ++ nibbleOfIdx x ++ nibbleOfIdx y ++ nibbleOfIdx n) &&& (0xF#4 ++ 0x0#4 ++ 0x0#4 ++ 0xF#4) =
      (((s &&& 0xF#4) ++ (nibbleOfIdx x &&& 0#4)) ++ (nibbleOfIdx y &&& 0#4)) ++ (nibbleOfIdx n &&& 0xF#4) := by
    rw [BitVec.and_append, BitVec.and_append, BitVec.and_append]
  rw [nibble_and_ones, nibble_and_ones, BitVec.and_zero, BitVec.and_zero] at h; exact h

end Sys2Proof
end

