-- ==== Sys2Proof/Laws/State.lean ====
section
/-! SUPPORT. One lemma for each field of State and each named update, true by rfl, so that no later proof unfolds a record
update; and what reading a register after an update gives. -/

namespace Sys2Proof.Machine

namespace State

/-! ### `setReg` -/

@[simp] theorem setReg_i (x : Idx) (b : Byte) (s : State) : (s.setReg x b).i = s.i := rfl
@[simp] theorem setReg_pc (x : Idx) (b : Byte) (s : State) : (s.setReg x b).pc = s.pc := rfl
@[simp] theorem setReg_stack (x : Idx) (b : Byte) (s : State) : (s.setReg x b).stack = s.stack := rfl
@[simp] theorem setReg_dt (x : Idx) (b : Byte) (s : State) : (s.setReg x b).dt = s.dt := rfl
@[simp] theorem setReg_st (x : Idx) (b : Byte) (s : State) : (s.setReg x b).st = s.st := rfl
@[simp] theorem setReg_toneOn (x : Idx) (b : Byte) (s : State) : (s.setReg x b).toneOn = s.toneOn := rfl
@[simp] theorem setReg_fb (x : Idx) (b : Byte) (s : State) : (s.setReg x b).fb = s.fb := rfl
@[simp] theorem setReg_collision (x : Idx) (b : Byte) (s : State) : (s.setReg x b).collision = s.collision := rfl
@[simp] theorem setReg_key (x : Idx) (b : Byte) (s : State) : (s.setReg x b).key = s.key := rfl
@[simp] theorem setReg_status (x : Idx) (b : Byte) (s : State) : (s.setReg x b).status = s.status := rfl
@[simp] theorem setReg_mem (x : Idx) (b : Byte) (s : State) : (s.setReg x b).mem = s.mem := rfl
@[simp] theorem setReg_cfg (x : Idx) (b : Byte) (s : State) : (s.setReg x b).cfg = s.cfg := rfl
@[simp] theorem setReg_agenda (x : Idx) (b : Byte) (s : State) : (s.setReg x b).agenda = s.agenda := rfl
@[simp] theorem setReg_draws (x : Idx) (b : Byte) (s : State) : (s.setReg x b).draws = s.draws := rfl
@[simp] theorem setReg_outputs (x : Idx) (b : Byte) (s : State) : (s.setReg x b).outputs = s.outputs := rfl

/-! ### `setRegs` -/

@[simp] theorem setRegs_i (bs : List Byte) (s : State) : (s.setRegs bs).i = s.i := rfl
@[simp] theorem setRegs_pc (bs : List Byte) (s : State) : (s.setRegs bs).pc = s.pc := rfl
@[simp] theorem setRegs_stack (bs : List Byte) (s : State) : (s.setRegs bs).stack = s.stack := rfl
@[simp] theorem setRegs_dt (bs : List Byte) (s : State) : (s.setRegs bs).dt = s.dt := rfl
@[simp] theorem setRegs_st (bs : List Byte) (s : State) : (s.setRegs bs).st = s.st := rfl
@[simp] theorem setRegs_toneOn (bs : List Byte) (s : State) : (s.setRegs bs).toneOn = s.toneOn := rfl
@[simp] theorem setRegs_fb (bs : List Byte) (s : State) : (s.setRegs bs).fb = s.fb := rfl
@[simp] theorem setRegs_collision (bs : List Byte) (s : State) : (s.setRegs bs).collision = s.collision := rfl
@[simp] theorem setRegs_key (bs : List Byte) (s : State) : (s.setRegs bs).key = s.key := rfl
@[simp] theorem setRegs_status (bs : List Byte) (s : State) : (s.setRegs bs).status = s.status := rfl
@[simp] theorem setRegs_mem (bs : List Byte) (s : State) : (s.setRegs bs).mem = s.mem := rfl
@[simp] theorem setRegs_cfg (bs : List Byte) (s : State) : (s.setRegs bs).cfg = s.cfg := rfl
@[simp] theorem setRegs_agenda (bs : List Byte) (s : State) : (s.setRegs bs).agenda = s.agenda := rfl
@[simp] theorem setRegs_draws (bs : List Byte) (s : State) : (s.setRegs bs).draws = s.draws := rfl
@[simp] theorem setRegs_outputs (bs : List Byte) (s : State) : (s.setRegs bs).outputs = s.outputs := rfl

/-! ### `setResultAndFlag` -/

@[simp] theorem setResultAndFlag_i (x : Idx) (r : Byte) (c : Bool) (s : State) : (s.setResultAndFlag x r c).i = s.i := rfl
@[simp] theorem setResultAndFlag_pc (x : Idx) (r : Byte) (c : Bool) (s : State) : (s.setResultAndFlag x r c).pc = s.pc := rfl
@[simp] theorem setResultAndFlag_stack (x : Idx) (r : Byte) (c : Bool) (s : State) : (s.setResultAndFlag x r c).stack = s.stack := rfl
@[simp] theorem setResultAndFlag_dt (x : Idx) (r : Byte) (c : Bool) (s : State) : (s.setResultAndFlag x r c).dt = s.dt := rfl
@[simp] theorem setResultAndFlag_st (x : Idx) (r : Byte) (c : Bool) (s : State) : (s.setResultAndFlag x r c).st = s.st := rfl
@[simp] theorem setResultAndFlag_toneOn (x : Idx) (r : Byte) (c : Bool) (s : State) : (s.setResultAndFlag x r c).toneOn = s.toneOn := rfl
@[simp] theorem setResultAndFlag_fb (x : Idx) (r : Byte) (c : Bool) (s : State) : (s.setResultAndFlag x r c).fb = s.fb := rfl
@[simp] theorem setResultAndFlag_collision (x : Idx) (r : Byte) (c : Bool) (s : State) : (s.setResultAndFlag x r c).collision = s.collision := rfl
@[simp] theorem setResultAndFlag_key (x : Idx) (r : Byte) (c : Bool) (s : State) : (s.setResultAndFlag x r c).key = s.key := rfl
@[simp] theorem setResultAndFlag_status (x : Idx) (r : Byte) (c : Bool) (s : State) : (s.setResultAndFlag x r c).status = s.status := rfl
@[simp] theorem setResultAndFlag_mem (x : Idx) (r : Byte) (c : Bool) (s : State) : (s.setResultAndFlag x r c).mem = s.mem := rfl
@[simp] theorem setResultAndFlag_cfg (x : Idx) (r : Byte) (c : Bool) (s : State) : (s.setResultAndFlag x r c).cfg = s.cfg := rfl
@[simp] theorem setResultAndFlag_agenda (x : Idx) (r : Byte) (c : Bool) (s : State) : (s.setResultAndFlag x r c).agenda = s.agenda := rfl
@[simp] theorem setResultAndFlag_draws (x : Idx) (r : Byte) (c : Bool) (s : State) : (s.setResultAndFlag x r c).draws = s.draws := rfl
@[simp] theorem setResultAndFlag_outputs (x : Idx) (r : Byte) (c : Bool) (s : State) : (s.setResultAndFlag x r c).outputs = s.outputs := rfl

/-! ### `advance` -/

@[simp] theorem advance_v (s : State) : (s.advance).v = s.v := rfl
@[simp] theorem advance_i (s : State) : (s.advance).i = s.i := rfl
@[simp] theorem advance_stack (s : State) : (s.advance).stack = s.stack := rfl
@[simp] theorem advance_dt (s : State) : (s.advance).dt = s.dt := rfl
@[simp] theorem advance_st (s : State) : (s.advance).st = s.st := rfl
@[simp] theorem advance_toneOn (s : State) : (s.advance).toneOn = s.toneOn := rfl
@[simp] theorem advance_fb (s : State) : (s.advance).fb = s.fb := rfl
@[simp] theorem advance_collision (s : State) : (s.advance).collision = s.collision := rfl
@[simp] theorem advance_key (s : State) : (s.advance).key = s.key := rfl
@[simp] theorem advance_status (s : State) : (s.advance).status = s.status := rfl
@[simp] theorem advance_mem (s : State) : (s.advance).mem = s.mem := rfl
@[simp] theorem advance_cfg (s : State) : (s.advance).cfg = s.cfg := rfl
@[simp] theorem advance_agenda (s : State) : (s.advance).agenda = s.agenda := rfl
@[simp] theorem advance_draws (s : State) : (s.advance).draws = s.draws := rfl
@[simp] theorem advance_outputs (s : State) : (s.advance).outputs = s.outputs := rfl
@[simp] theorem advance_reg (s : State) (j : Idx) : (s.advance).reg j = s.reg j := rfl
@[simp] theorem advance_pc (s : State) : s.advance.pc = s.pc + 2 := rfl

/-! ### `jumpTo` -/

@[simp] theorem jumpTo_v (t : Word) (s : State) : (s.jumpTo t).v = s.v := rfl
@[simp] theorem jumpTo_i (t : Word) (s : State) : (s.jumpTo t).i = s.i := rfl
@[simp] theorem jumpTo_stack (t : Word) (s : State) : (s.jumpTo t).stack = s.stack := rfl
@[simp] theorem jumpTo_dt (t : Word) (s : State) : (s.jumpTo t).dt = s.dt := rfl
@[simp] theorem jumpTo_st (t : Word) (s : State) : (s.jumpTo t).st = s.st := rfl
@[simp] theorem jumpTo_toneOn (t : Word) (s : State) : (s.jumpTo t).toneOn = s.toneOn := rfl
@[simp] theorem jumpTo_fb (t : Word) (s : State) : (s.jumpTo t).fb = s.fb := rfl
@[simp] theorem jumpTo_collision (t : Word) (s : State) : (s.jumpTo t).collision = s.collision := rfl
@[simp] theorem jumpTo_key (t : Word) (s : State) : (s.jumpTo t).key = s.key := rfl
@[simp] theorem jumpTo_status (t : Word) (s : State) : (s.jumpTo t).status = s.status := rfl
@[simp] theorem jumpTo_mem (t : Word) (s : State) : (s.jumpTo t).mem = s.mem := rfl
@[simp] theorem jumpTo_cfg (t : Word) (s : State) : (s.jumpTo t).cfg = s.cfg := rfl
@[simp] theorem jumpTo_agenda (t : Word) (s : State) : (s.jumpTo t).agenda = s.agenda := rfl
@[simp] theorem jumpTo_draws (t : Word) (s : State) : (s.jumpTo t).draws = s.draws := rfl
@[simp] theorem jumpTo_outputs (t : Word) (s : State) : (s.jumpTo t).outputs = s.outputs := rfl
@[simp] theorem jumpTo_reg (t : Word) (s : State) (j : Idx) : (s.jumpTo t).reg j = s.reg j := rfl
@[simp] theorem jumpTo_pc (t : Word) (s : State) : (s.jumpTo t).pc = t := rfl

/-! ### `skipIf` -/

@[simp] theorem skipIf_v (c : Bool) (s : State) : (s.skipIf c).v = s.v := rfl
@[simp] theorem skipIf_i (c : Bool) (s : State) : (s.skipIf c).i = s.i := rfl
@[simp] theorem skipIf_stack (c : Bool) (s : State) : (s.skipIf c).stack = s.stack := rfl
@[simp] theorem skipIf_dt (c : Bool) (s : State) : (s.skipIf c).dt = s.dt := rfl
@[simp] theorem skipIf_st (c : Bool) (s : State) : (s.skipIf c).st = s.st := rfl
@[simp] theorem skipIf_toneOn (c : Bool) (s : State) : (s.skipIf c).toneOn = s.toneOn := rfl
@[simp] theorem skipIf_fb (c : Bool) (s : State) : (s.skipIf c).fb = s.fb := rfl
@[simp] theorem skipIf_collision (c : Bool) (s : State) : (s.skipIf c).collision = s.collision := rfl
@[simp] theorem skipIf_key (c : Bool) (s : State) : (s.skipIf c).key = s.key := rfl
@[simp] theorem skipIf_status (c : Bool) (s : State) : (s.skipIf c).status = s.status := rfl
@[simp] theorem skipIf_mem (c : Bool) (s : State) : (s.skipIf c).mem = s.mem := rfl
@[simp] theorem skipIf_cfg (c : Bool) (s : State) : (s.skipIf c).cfg = s.cfg := rfl
@[simp] theorem skipIf_agenda (c : Bool) (s : State) : (s.skipIf c).agenda = s.agenda := rfl
@[simp] theorem skipIf_draws (c : Bool) (s : State) : (s.skipIf c).draws = s.draws := rfl
@[simp] theorem skipIf_outputs (c : Bool) (s : State) : (s.skipIf c).outputs = s.outputs := rfl
@[simp] theorem skipIf_reg (c : Bool) (s : State) (j : Idx) : (s.skipIf c).reg j = s.reg j := rfl
@[simp] theorem skipIf_pc (c : Bool) (s : State) : (s.skipIf c).pc = if c then s.pc + 4 else s.pc + 2 := rfl

/-! ### `drawn` -/

@[simp] theorem drawn_v (s : State) : (s.drawn).v = s.v := rfl
@[simp] theorem drawn_i (s : State) : (s.drawn).i = s.i := rfl
@[simp] theorem drawn_pc (s : State) : (s.drawn).pc = s.pc := rfl
@[simp] theorem drawn_stack (s : State) : (s.drawn).stack = s.stack := rfl
@[simp] theorem drawn_dt (s : State) : (s.drawn).dt = s.dt := rfl
@[simp] theorem drawn_st (s : State) : (s.drawn).st = s.st := rfl
@[simp] theorem drawn_toneOn (s : State) : (s.drawn).toneOn = s.toneOn := rfl
@[simp] theorem drawn_fb (s : State) : (s.drawn).fb = s.fb := rfl
@[simp] theorem drawn_collision (s : State) : (s.drawn).collision = s.collision := rfl
@[simp] theorem drawn_key (s : State) : (s.drawn).key = s.key := rfl
@[simp] theorem drawn_status (s : State) : (s.drawn).status = s.status := rfl
@[simp] theorem drawn_mem (s : State) : (s.drawn).mem = s.mem := rfl
@[simp] theorem drawn_cfg (s : State) : (s.drawn).cfg = s.cfg := rfl
@[simp] theorem drawn_agenda (s : State) : (s.drawn).agenda = s.agenda := rfl
@[simp] theorem drawn_outputs (s : State) : (s.drawn).outputs = s.outputs := rfl
@[simp] theorem drawn_reg (s : State) (j : Idx) : (s.drawn).reg j = s.reg j := rfl
@[simp] theorem drawn_draws (s : State) : s.drawn.draws = s.draws + 1 := rfl

/-! ### `faulted` -/

@[simp] theorem faulted_v (f : SessionFault) (s : State) : (s.faulted f).v = s.v := rfl
@[simp] theorem faulted_i (f : SessionFault) (s : State) : (s.faulted f).i = s.i := rfl
@[simp] theorem faulted_pc (f : SessionFault) (s : State) : (s.faulted f).pc = s.pc := rfl
@[simp] theorem faulted_stack (f : SessionFault) (s : State) : (s.faulted f).stack = s.stack := rfl
@[simp] theorem faulted_dt (f : SessionFault) (s : State) : (s.faulted f).dt = s.dt := rfl
@[simp] theorem faulted_st (f : SessionFault) (s : State) : (s.faulted f).st = s.st := rfl
@[simp] theorem faulted_toneOn (f : SessionFault) (s : State) : (s.faulted f).toneOn = s.toneOn := rfl
@[simp] theorem faulted_fb (f : SessionFault) (s : State) : (s.faulted f).fb = s.fb := rfl
@[simp] theorem faulted_collision (f : SessionFault) (s : State) : (s.faulted f).collision = s.collision := rfl
@[simp] theorem faulted_key (f : SessionFault) (s : State) : (s.faulted f).key = s.key := rfl
@[simp] theorem faulted_mem (f : SessionFault) (s : State) : (s.faulted f).mem = s.mem := rfl
@[simp] theorem faulted_cfg (f : SessionFault) (s : State) : (s.faulted f).cfg = s.cfg := rfl
@[simp] theorem faulted_agenda (f : SessionFault) (s : State) : (s.faulted f).agenda = s.agenda := rfl
@[simp] theorem faulted_draws (f : SessionFault) (s : State) : (s.faulted f).draws = s.draws := rfl
@[simp] theorem faulted_reg (f : SessionFault) (s : State) (j : Idx) : (s.faulted f).reg j = s.reg j := rfl
@[simp] theorem faulted_status (f : SessionFault) (s : State) : (s.faulted f).status = .fatal f := rfl
@[simp] theorem faulted_outputs (f : SessionFault) (s : State) : (s.faulted f).outputs = .displayHalt :: s.outputs := rfl

/-! ### `putByte` -/

@[simp] theorem putByte_v (a : Nat) (b : Byte) (s : State) : (s.putByte a b).v = s.v := rfl
@[simp] theorem putByte_i (a : Nat) (b : Byte) (s : State) : (s.putByte a b).i = s.i := rfl
@[simp] theorem putByte_pc (a : Nat) (b : Byte) (s : State) : (s.putByte a b).pc = s.pc := rfl
@[simp] theorem putByte_stack (a : Nat) (b : Byte) (s : State) : (s.putByte a b).stack = s.stack := rfl
@[simp] theorem putByte_dt (a : Nat) (b : Byte) (s : State) : (s.putByte a b).dt = s.dt := rfl
@[simp] theorem putByte_st (a : Nat) (b : Byte) (s : State) : (s.putByte a b).st = s.st := rfl
@[simp] theorem putByte_toneOn (a : Nat) (b : Byte) (s : State) : (s.putByte a b).toneOn = s.toneOn := rfl
@[simp] theorem putByte_fb (a : Nat) (b : Byte) (s : State) : (s.putByte a b).fb = s.fb := rfl
@[simp] theorem putByte_collision (a : Nat) (b : Byte) (s : State) : (s.putByte a b).collision = s.collision := rfl
@[simp] theorem putByte_key (a : Nat) (b : Byte) (s : State) : (s.putByte a b).key = s.key := rfl
@[simp] theorem putByte_status (a : Nat) (b : Byte) (s : State) : (s.putByte a b).status = s.status := rfl
@[simp] theorem putByte_cfg (a : Nat) (b : Byte) (s : State) : (s.putByte a b).cfg = s.cfg := rfl
@[simp] theorem putByte_agenda (a : Nat) (b : Byte) (s : State) : (s.putByte a b).agenda = s.agenda := rfl
@[simp] theorem putByte_draws (a : Nat) (b : Byte) (s : State) : (s.putByte a b).draws = s.draws := rfl
@[simp] theorem putByte_outputs (a : Nat) (b : Byte) (s : State) : (s.putByte a b).outputs = s.outputs := rfl
@[simp] theorem putByte_reg (a : Nat) (b : Byte) (s : State) (j : Idx) : (s.putByte a b).reg j = s.reg j := rfl
@[simp] theorem putByte_mem (a : Nat) (b : Byte) (s : State) :
    (s.putByte a b).mem = s.mem.put (resetByte s.cfg) a b := rfl

/-! ### `putBytes` -/

@[simp] theorem putBytes_v (a : Nat) (bs : List Byte) (s : State) : (s.putBytes a bs).v = s.v := rfl
@[simp] theorem putBytes_i (a : Nat) (bs : List Byte) (s : State) : (s.putBytes a bs).i = s.i := rfl
@[simp] theorem putBytes_pc (a : Nat) (bs : List Byte) (s : State) : (s.putBytes a bs).pc = s.pc := rfl
@[simp] theorem putBytes_stack (a : Nat) (bs : List Byte) (s : State) : (s.putBytes a bs).stack = s.stack := rfl
@[simp] theorem putBytes_dt (a : Nat) (bs : List Byte) (s : State) : (s.putBytes a bs).dt = s.dt := rfl
@[simp] theorem putBytes_st (a : Nat) (bs : List Byte) (s : State) : (s.putBytes a bs).st = s.st := rfl
@[simp] theorem putBytes_toneOn (a : Nat) (bs : List Byte) (s : State) : (s.putBytes a bs).toneOn = s.toneOn := rfl
@[simp] theorem putBytes_fb (a : Nat) (bs : List Byte) (s : State) : (s.putBytes a bs).fb = s.fb := rfl
@[simp] theorem putBytes_collision (a : Nat) (bs : List Byte) (s : State) : (s.putBytes a bs).collision = s.collision := rfl
@[simp] theorem putBytes_key (a : Nat) (bs : List Byte) (s : State) : (s.putBytes a bs).key = s.key := rfl
@[simp] theorem putBytes_status (a : Nat) (bs : List Byte) (s : State) : (s.putBytes a bs).status = s.status := rfl
@[simp] theorem putBytes_cfg (a : Nat) (bs : List Byte) (s : State) : (s.putBytes a bs).cfg = s.cfg := rfl
@[simp] theorem putBytes_agenda (a : Nat) (bs : List Byte) (s : State) : (s.putBytes a bs).agenda = s.agenda := rfl
@[simp] theorem putBytes_draws (a : Nat) (bs : List Byte) (s : State) : (s.putBytes a bs).draws = s.draws := rfl
@[simp] theorem putBytes_outputs (a : Nat) (bs : List Byte) (s : State) : (s.putBytes a bs).outputs = s.outputs := rfl
@[simp] theorem putBytes_reg (a : Nat) (bs : List Byte) (s : State) (j : Idx) : (s.putBytes a bs).reg j = s.reg j := rfl
@[simp] theorem putBytes_mem (a : Nat) (bs : List Byte) (s : State) :
    (s.putBytes a bs).mem = s.mem.putAll (resetByte s.cfg) a bs := rfl

/-! ### `setSoundTimer` -/

@[simp] theorem setSoundTimer_v (b : Byte) (s : State) : (s.setSoundTimer b).v = s.v := rfl
@[simp] theorem setSoundTimer_i (b : Byte) (s : State) : (s.setSoundTimer b).i = s.i := rfl
@[simp] theorem setSoundTimer_pc (b : Byte) (s : State) : (s.setSoundTimer b).pc = s.pc := rfl
@[simp] theorem setSoundTimer_stack (b : Byte) (s : State) : (s.setSoundTimer b).stack = s.stack := rfl
@[simp] theorem setSoundTimer_dt (b : Byte) (s : State) : (s.setSoundTimer b).dt = s.dt := rfl
@[simp] theorem setSoundTimer_fb (b : Byte) (s : State) : (s.setSoundTimer b).fb = s.fb := rfl
@[simp] theorem setSoundTimer_collision (b : Byte) (s : State) : (s.setSoundTimer b).collision = s.collision := rfl
@[simp] theorem setSoundTimer_key (b : Byte) (s : State) : (s.setSoundTimer b).key = s.key := rfl
@[simp] theorem setSoundTimer_status (b : Byte) (s : State) : (s.setSoundTimer b).status = s.status := rfl
@[simp] theorem setSoundTimer_mem (b : Byte) (s : State) : (s.setSoundTimer b).mem = s.mem := rfl
@[simp] theorem setSoundTimer_cfg (b : Byte) (s : State) : (s.setSoundTimer b).cfg = s.cfg := rfl
@[simp] theorem setSoundTimer_agenda (b : Byte) (s : State) : (s.setSoundTimer b).agenda = s.agenda := rfl
@[simp] theorem setSoundTimer_draws (b : Byte) (s : State) : (s.setSoundTimer b).draws = s.draws := rfl
@[simp] theorem setSoundTimer_reg (b : Byte) (s : State) (j : Idx) : (s.setSoundTimer b).reg j = s.reg j := rfl
@[simp] theorem setSoundTimer_st (b : Byte) (s : State) : (s.setSoundTimer b).st = b := rfl
@[simp] theorem setSoundTimer_toneOn (b : Byte) (s : State) :
    (s.setSoundTimer b).toneOn = toneAfter (toneEvent s.st b) s.toneOn := rfl
@[simp] theorem setSoundTimer_outputs (b : Byte) (s : State) :
    (s.setSoundTimer b).outputs = (toneEvent s.st b).toList ++ s.outputs := rfl

/-! ### `withSprite` -/

@[simp] theorem withSprite_v (x y : Idx) (rows : List Byte) (s : State) : (s.withSprite x y rows).v = s.v := rfl
@[simp] theorem withSprite_i (x y : Idx) (rows : List Byte) (s : State) : (s.withSprite x y rows).i = s.i := rfl
@[simp] theorem withSprite_pc (x y : Idx) (rows : List Byte) (s : State) : (s.withSprite x y rows).pc = s.pc := rfl
@[simp] theorem withSprite_stack (x y : Idx) (rows : List Byte) (s : State) : (s.withSprite x y rows).stack = s.stack := rfl
@[simp] theorem withSprite_dt (x y : Idx) (rows : List Byte) (s : State) : (s.withSprite x y rows).dt = s.dt := rfl
@[simp] theorem withSprite_st (x y : Idx) (rows : List Byte) (s : State) : (s.withSprite x y rows).st = s.st := rfl
@[simp] theorem withSprite_toneOn (x y : Idx) (rows : List Byte) (s : State) : (s.withSprite x y rows).toneOn = s.toneOn := rfl
@[simp] theorem withSprite_key (x y : Idx) (rows : List Byte) (s : State) : (s.withSprite x y rows).key = s.key := rfl
@[simp] theorem withSprite_status (x y : Idx) (rows : List Byte) (s : State) : (s.withSprite x y rows).status = s.status := rfl
@[simp] theorem withSprite_mem (x y : Idx) (rows : List Byte) (s : State) : (s.withSprite x y rows).mem = s.mem := rfl
@[simp] theorem withSprite_cfg (x y : Idx) (rows : List Byte) (s : State) : (s.withSprite x y rows).cfg = s.cfg := rfl
@[simp] theorem withSprite_agenda (x y : Idx) (rows : List Byte) (s : State) : (s.withSprite x y rows).agenda = s.agenda := rfl
@[simp] theorem withSprite_draws (x y : Idx) (rows : List Byte) (s : State) : (s.withSprite x y rows).draws = s.draws := rfl
@[simp] theorem withSprite_outputs (x y : Idx) (rows : List Byte) (s : State) : (s.withSprite x y rows).outputs = s.outputs := rfl
@[simp] theorem withSprite_reg (x y : Idx) (rows : List Byte) (s : State) (j : Idx) : (s.withSprite x y rows).reg j = s.reg j := rfl
@[simp] theorem withSprite_fb (x y : Idx) (rows : List Byte) (s : State) :
    (s.withSprite x y rows).fb = (drawSprite s.cfg (s.reg x) (s.reg y) rows s.fb).1 := rfl
@[simp] theorem withSprite_collision (x y : Idx) (rows : List Byte) (s : State) :
    (s.withSprite x y rows).collision = (s.collision || (drawSprite s.cfg (s.reg x) (s.reg y) rows s.fb).2) := rfl

/-! ### `consumeCollision` -/

@[simp] theorem consumeCollision_i (s : State) : (s.consumeCollision).i = s.i := rfl
@[simp] theorem consumeCollision_pc (s : State) : (s.consumeCollision).pc = s.pc := rfl
@[simp] theorem consumeCollision_stack (s : State) : (s.consumeCollision).stack = s.stack := rfl
@[simp] theorem consumeCollision_dt (s : State) : (s.consumeCollision).dt = s.dt := rfl
@[simp] theorem consumeCollision_st (s : State) : (s.consumeCollision).st = s.st := rfl
@[simp] theorem consumeCollision_toneOn (s : State) : (s.consumeCollision).toneOn = s.toneOn := rfl
@[simp] theorem consumeCollision_fb (s : State) : (s.consumeCollision).fb = s.fb := rfl
@[simp] theorem consumeCollision_key (s : State) : (s.consumeCollision).key = s.key := rfl
@[simp] theorem consumeCollision_status (s : State) : (s.consumeCollision).status = s.status := rfl
@[simp] theorem consumeCollision_mem (s : State) : (s.consumeCollision).mem = s.mem := rfl
@[simp] theorem consumeCollision_cfg (s : State) : (s.consumeCollision).cfg = s.cfg := rfl
@[simp] theorem consumeCollision_agenda (s : State) : (s.consumeCollision).agenda = s.agenda := rfl
@[simp] theorem consumeCollision_draws (s : State) : (s.consumeCollision).draws = s.draws := rfl
@[simp] theorem consumeCollision_outputs (s : State) : (s.consumeCollision).outputs = s.outputs := rfl
@[simp] theorem consumeCollision_collision (s : State) : s.consumeCollision.collision = false := rfl

/-! ### `popAgenda` -/

@[simp] theorem popAgenda_v (s : State) : (s.popAgenda).v = s.v := rfl
@[simp] theorem popAgenda_i (s : State) : (s.popAgenda).i = s.i := rfl
@[simp] theorem popAgenda_pc (s : State) : (s.popAgenda).pc = s.pc := rfl
@[simp] theorem popAgenda_stack (s : State) : (s.popAgenda).stack = s.stack := rfl
@[simp] theorem popAgenda_dt (s : State) : (s.popAgenda).dt = s.dt := rfl
@[simp] theorem popAgenda_st (s : State) : (s.popAgenda).st = s.st := rfl
@[simp] theorem popAgenda_toneOn (s : State) : (s.popAgenda).toneOn = s.toneOn := rfl
@[simp] theorem popAgenda_fb (s : State) : (s.popAgenda).fb = s.fb := rfl
@[simp] theorem popAgenda_collision (s : State) : (s.popAgenda).collision = s.collision := rfl
@[simp] theorem popAgenda_key (s : State) : (s.popAgenda).key = s.key := rfl
@[simp] theorem popAgenda_status (s : State) : (s.popAgenda).status = s.status := rfl
@[simp] theorem popAgenda_mem (s : State) : (s.popAgenda).mem = s.mem := rfl
@[simp] theorem popAgenda_cfg (s : State) : (s.popAgenda).cfg = s.cfg := rfl
@[simp] theorem popAgenda_draws (s : State) : (s.popAgenda).draws = s.draws := rfl
@[simp] theorem popAgenda_outputs (s : State) : (s.popAgenda).outputs = s.outputs := rfl
@[simp] theorem popAgenda_reg (s : State) (j : Idx) : (s.popAgenda).reg j = s.reg j := rfl
@[simp] theorem popAgenda_agenda (s : State) : s.popAgenda.agenda = s.agenda.tail := rfl

/-! ### Registers -/

/-- Reading a register after a register was written. -/
@[simp] theorem reg_setReg (x : Idx) (b : Byte) (s : State) (j : Idx) :
    (s.setReg x b).reg j = if j = x then b else s.reg j := by
  simp only [reg, setReg, Fin.getElem_fin, Vector.getElem_set, Fin.val_inj, eq_comm]

/-- Reading a register after a result and its flag were written: the flag wins in VF (R153). -/
@[simp] theorem reg_setResultAndFlag (x : Idx) (r : Byte) (c : Bool) (s : State) (j : Idx) :
    (s.setResultAndFlag x r c).reg j = if j = flagReg then flagByte c else if j = x then r else s.reg j := by
  simp [setResultAndFlag]

/-- Reading a register after the collision flag was consumed into VF (R200). -/
@[simp] theorem reg_consumeCollision (s : State) (j : Idx) :
    s.consumeCollision.reg j = if j = flagReg then flagByte s.collision else s.reg j := by
  simp only [consumeCollision, reg_setReg]; rfl

/-- Two register files with the same registers are the same data. -/
theorem v_ext {s t : State} (h : ∀ j, s.reg j = t.reg j) : s.v = t.v :=
  Vector.ext fun k hk => h ⟨k, hk⟩

end State

/-- A register of a file whose registers from `r` on were replaced by the bytes of a list. -/
theorem getElem_setAll (r : Nat) (bs : List Byte) (v : Vector Byte 16) (j : Nat) (hj : j < 16) :
    (setAll r bs v)[j] = if r ≤ j ∧ j < r + bs.length then bs.getD (j - r) 0 else v[j] := by
  induction bs generalizing r v with
  | nil => simp only [setAll, List.length_nil]; rw [if_neg (by omega)]
  | cons b bs ih =>
    simp only [setAll, List.length_cons]
    rw [ih]
    rcases Nat.lt_trichotomy j r with h | h | h
    · rw [if_neg (by omega), if_neg (by omega)]
      split
      · exact Vector.getElem_set_ne _ hj (by omega)
      · rfl
    · subst h
      rw [if_neg (by omega), if_pos (by omega), dif_pos hj]; simp
    · by_cases hin : j < r + (bs.length + 1)
      · rw [if_pos (by omega), if_pos (by omega)]
        obtain ⟨k, rfl⟩ : ∃ k, j = r + k + 1 := ⟨j - r - 1, by omega⟩
        rw [show r + k + 1 - (r + 1) = k by omega, show r + k + 1 - r = k + 1 by omega]; simp
      · rw [if_neg (by omega), if_neg (by omega)]
        split
        · exact Vector.getElem_set_ne _ hj (by omega)
        · rfl

/-- Reading a register after the first registers were replaced by the bytes of a list (R226). -/
theorem State.reg_setRegs (bs : List Byte) (s : State) (j : Idx) :
    (s.setRegs bs).reg j = if j.val < bs.length then bs.getD j.val 0 else s.reg j := by
  have := getElem_setAll 0 bs s.v j.val j.isLt
  simpa [State.reg, State.setRegs] using this

end Sys2Proof.Machine
end

