-- ==== Sys2Proof/Laws/Memory.lean ====
section
/-! SUPPORT. The laws of memory: a read after a write, the canonical form, and that canonical memories with equal contents are
equal (rules R64, R66). -/

namespace Sys2Proof.Machine

namespace Memory

theorem lookup_insert (m : Memory) (a : Nat) (b : Byte) (x : Nat) :
    (m.insert a b).lookup x = if a = x then some b else m.lookup x := by
  induction m with
  | nil => simp [insert, lookup]
  | cons c m ih =>
    simp only [insert]
    split
    · simp [lookup]
    · split
      · next h => subst h; by_cases hx : c.1 = x <;> simp [lookup, hx]
      · next h =>
        by_cases hx : c.1 = x
        · have : a ≠ x := fun e => h (hx.trans e.symm)
          simp [lookup, hx, this]
        · simp [lookup, hx, ih]

/-- Nothing is listed below the lower bound of a canonical list. -/
theorem lookup_below {dflt : Nat → Byte} {size lo : Nat} {m : Memory} (h : m.wfFrom dflt size lo = true) {a : Nat}
    (ha : a < lo) : m.lookup a = none := by
  induction m generalizing lo with
  | nil => rfl
  | cons c m ih =>
    simp only [wfFrom, Bool.and_eq_true, decide_eq_true_eq] at h
    have : c.1 ≠ a := by omega
    simp only [lookup, this, if_false]
    exact ih h.2 (by omega)

theorem lookup_erase {dflt : Nat → Byte} {size lo : Nat} {m : Memory} (h : m.wfFrom dflt size lo = true) (a x : Nat) :
    (m.erase a).lookup x = if a = x then none else m.lookup x := by
  induction m generalizing lo with
  | nil => simp [erase, lookup]
  | cons c m ih =>
    simp only [wfFrom, Bool.and_eq_true, decide_eq_true_eq] at h
    simp only [erase]
    split
    · next hc =>
      subst hc
      by_cases hx : c.1 = x
      · simp [hx, lookup_below h.2 (show x < c.1 + 1 by omega)]
      · simp [lookup, hx]
    · next hc =>
      by_cases hx : c.1 = x
      · have : a ≠ x := fun e => hc (hx.trans e.symm)
        simp [lookup, hx, this]
      · simp [lookup, hx, ih h.2]

/-- A read after a write: the byte written at its address, the old byte elsewhere (R66). -/
theorem get_put {dflt : Nat → Byte} {size : Nat} {m : Memory} (h : m.wf dflt size = true) (a : Nat) (b : Byte) (x : Nat) :
    (m.put dflt a b).get dflt x = if x = a then b else m.get dflt x := by
  unfold put get
  split
  · next hb =>
    rw [lookup_erase h]
    by_cases hx : a = x
    · subst hx; simp [hb]
    · simp [hx, Ne.symm hx]
  · rw [lookup_insert]
    by_cases hx : a = x
    · subst hx; simp
    · simp [hx, Ne.symm hx]

theorem wfFrom_mono {dflt : Nat → Byte} {size lo lo' : Nat} {m : Memory} (h : m.wfFrom dflt size lo = true) (hl : lo' ≤ lo) :
    m.wfFrom dflt size lo' = true := by
  cases m with
  | nil => rfl
  | cons c m =>
    simp only [wfFrom, Bool.and_eq_true, decide_eq_true_eq] at h ⊢
    exact ⟨⟨⟨by omega, h.1.1.2⟩, h.1.2⟩, h.2⟩

theorem wfFrom_erase {dflt : Nat → Byte} {size lo : Nat} {m : Memory} (h : m.wfFrom dflt size lo = true) (a : Nat) :
    (m.erase a).wfFrom dflt size lo = true := by
  induction m generalizing lo with
  | nil => rfl
  | cons c m ih =>
    simp only [wfFrom, Bool.and_eq_true, decide_eq_true_eq] at h
    simp only [erase]
    split
    · exact wfFrom_mono h.2 (by omega)
    · simp only [wfFrom, Bool.and_eq_true, decide_eq_true_eq]
      exact ⟨h.1, ih h.2⟩

theorem wfFrom_insert {dflt : Nat → Byte} {size lo : Nat} {m : Memory} (h : m.wfFrom dflt size lo = true) {a : Nat}
    {b : Byte} (hlo : lo ≤ a) (hs : a < size) (hb : b ≠ dflt a) : (m.insert a b).wfFrom dflt size lo = true := by
  induction m generalizing lo with
  | nil => simp [insert, wfFrom, hlo, hs, hb]
  | cons c m ih =>
    simp only [wfFrom, Bool.and_eq_true, decide_eq_true_eq] at h
    simp only [insert]
    split
    · simp only [wfFrom, Bool.and_eq_true, decide_eq_true_eq]
      exact ⟨⟨⟨hlo, hs⟩, hb⟩, ⟨⟨by omega, h.1.1.2⟩, h.1.2⟩, h.2⟩
    · split
      · next hc =>
        subst hc
        simp only [wfFrom, Bool.and_eq_true, decide_eq_true_eq]
        exact ⟨⟨⟨hlo, hs⟩, hb⟩, h.2⟩
      · simp only [wfFrom, Bool.and_eq_true, decide_eq_true_eq]
        exact ⟨h.1, ih h.2 (by omega)⟩

/-- A write inside the memory keeps the canonical form. -/
theorem wf_put {dflt : Nat → Byte} {size : Nat} {m : Memory} (h : m.wf dflt size = true) {a : Nat} (b : Byte)
    (ha : a < size) : (m.put dflt a b).wf dflt size = true := by
  unfold put
  split
  · exact wfFrom_erase h a
  · next hb => exact wfFrom_insert h (Nat.zero_le a) ha hb

/-- A canonical memory lists exactly the addresses that do not hold what session start left there. -/
theorem lookup_eq_none_iff {dflt : Nat → Byte} {size lo : Nat} {m : Memory} (h : m.wfFrom dflt size lo = true) (a : Nat) :
    m.lookup a = none ↔ m.get dflt a = dflt a := by
  induction m generalizing lo with
  | nil => simp [lookup, get]
  | cons c m ih =>
    simp only [wfFrom, Bool.and_eq_true, decide_eq_true_eq] at h
    by_cases hc : c.1 = a
    · subst hc; simp [lookup, get, h.1.2]
    · simpa [lookup, get, hc] using ih h.2

theorem ext_from {dflt : Nat → Byte} {size lo : Nat} {m m' : Memory} (h : m.wfFrom dflt size lo = true)
    (h' : m'.wfFrom dflt size lo = true) (heq : ∀ a, m.lookup a = m'.lookup a) : m = m' := by
  induction m generalizing m' lo with
  | nil =>
    cases m' with
    | nil => rfl
    | cons c m' => simpa [lookup] using heq c.1
  | cons c m ih =>
    cases m' with
    | nil => simpa [lookup] using heq c.1
    | cons c' m' =>
      simp only [wfFrom, Bool.and_eq_true, decide_eq_true_eq] at h h'
      have hc : c.1 = c'.1 := by
        rcases Nat.lt_trichotomy c.1 c'.1 with hlt | he | hlt
        · have := heq c.1
          simp [lookup, show c'.1 ≠ c.1 by omega, lookup_below h'.2 (show c.1 < c'.1 + 1 by omega)] at this
        · exact he
        · have := heq c'.1
          simp [lookup, show c.1 ≠ c'.1 by omega, lookup_below h.2 (show c'.1 < c.1 + 1 by omega)] at this
      have hcc : c = c' := by
        have := heq c.1
        simp [lookup, hc] at this
        exact Prod.ext hc this
      subst hcc
      congr 1
      refine ih h.2 h'.2 fun a => ?_
      by_cases ha : c.1 = a
      · subst ha
        rw [lookup_below h.2 (by omega), lookup_below h'.2 (by omega)]
      · simpa [lookup, ha] using heq a

/-- Canonical memories with equal contents are equal data. -/
theorem ext_of_get {dflt : Nat → Byte} {size : Nat} {m m' : Memory} (h : m.wf dflt size = true) (h' : m'.wf dflt size = true)
    (heq : ∀ a, m.get dflt a = m'.get dflt a) : m = m' := by
  refine ext_from h h' fun a => ?_
  have e := heq a
  by_cases hm : m.lookup a = none
  · have : m'.lookup a = none := by
      rw [lookup_eq_none_iff h', ← e]; exact (lookup_eq_none_iff h a).1 hm
    rw [hm, this]
  · have hm' : m'.lookup a ≠ none := by
      rw [Ne, lookup_eq_none_iff h', ← e]; exact fun x => hm ((lookup_eq_none_iff h a).2 x)
    obtain ⟨b, hb⟩ := Option.ne_none_iff_exists'.1 hm
    obtain ⟨b', hb'⟩ := Option.ne_none_iff_exists'.1 hm'
    simpa [get, hb, hb'] using e

end Memory

namespace State

/-- The state's memory has the canonical form. -/
abbrev MemWf (s : State) : Prop := s.mem.wf (resetByte s.cfg) s.cfg.memorySize = true

theorem memWf_putByte {s : State} (h : s.MemWf) {a : Nat} (b : Byte) (ha : a < s.cfg.memorySize) : (s.putByte a b).MemWf :=
  Memory.wf_put h b ha

theorem putBytes_cons (a : Nat) (b : Byte) (bs : List Byte) (s : State) :
    s.putBytes a (b :: bs) = (s.putByte a b).putBytes (a + 1) bs := rfl

theorem memWf_putBytes {s : State} (h : s.MemWf) {a : Nat} {bs : List Byte} (ha : a + bs.length ≤ s.cfg.memorySize) :
    (s.putBytes a bs).MemWf := by
  induction bs generalizing a s with
  | nil => exact h
  | cons b bs ih =>
    simp only [List.length_cons] at ha
    exact ih (memWf_putByte h b (by omega)) (by simp only [putByte_cfg]; omega)

/-- Reading one byte after one byte was written (R66). -/
theorem byteAt_putByte {s : State} (h : s.MemWf) (a : Nat) (b : Byte) (x : Nat) :
    (s.putByte a b).byteAt x = if x = a then b else s.byteAt x :=
  Memory.get_put h a b x

/-- Reading one byte after a block was written: the block's byte inside it, the old byte outside. -/
theorem byteAt_putBytes {s : State} (h : s.MemWf) {a : Nat} {bs : List Byte} (ha : a + bs.length ≤ s.cfg.memorySize) (x : Nat) :
    (s.putBytes a bs).byteAt x = if a ≤ x ∧ x < a + bs.length then bs.getD (x - a) 0 else s.byteAt x := by
  induction bs generalizing a s with
  | nil => simp only [List.length_nil]; rw [if_neg (by omega)]; rfl
  | cons b bs ih =>
    simp only [List.length_cons] at ha ⊢
    rw [putBytes_cons]
    rw [ih (memWf_putByte h b (by omega)) (by simp only [putByte_cfg]; omega), byteAt_putByte h]
    rcases Nat.lt_trichotomy x a with hx | hx | hx
    · rw [if_neg (by omega), if_neg (by omega), if_neg (by omega)]
    · subst hx
      rw [if_neg (by omega), if_pos rfl, if_pos (by omega)]; simp
    · by_cases hin : x < a + (bs.length + 1)
      · rw [if_pos (by omega), if_pos (by omega)]
        obtain ⟨k, rfl⟩ : ∃ k, x = a + k + 1 := ⟨x - a - 1, by omega⟩
        rw [show a + k + 1 - (a + 1) = k by omega, show a + k + 1 - a = k + 1 by omega]; simp
      · rw [if_neg (by omega), if_neg (by omega), if_neg (by omega)]

@[simp] theorem length_bytesAt (s : State) (a n : Nat) : (s.bytesAt a n).length = n := by
  induction n generalizing a with
  | zero => rfl
  | succ n ih => simp [bytesAt, ih]

theorem getD_bytesAt (s : State) (a n k : Nat) (hk : k < n) : (s.bytesAt a n).getD k 0 = s.byteAt (a + k) := by
  induction n generalizing a k with
  | zero => omega
  | succ n ih =>
    cases k with
    | zero => simp [bytesAt]
    | succ k =>
      simp only [bytesAt, List.getD_cons_succ]
      rw [ih (a + 1) k (by omega), show a + 1 + k = a + (k + 1) by omega]

end State

end Sys2Proof.Machine
end

