-- ==== Sys2Proof/Laws/Ops.lean ====
section
/-! SUPPORT. One lemma for each shared operation that says everything it can do. -/

namespace Sys2Proof.Machine

@[simp] theorem orRaise_ok {α : Type} (s : State) (a : α) (k : α → Result) : orRaise s (.ok a) k = k a := rfl

@[simp] theorem orRaise_error {α : Type} (s : State) (f : SessionFault) (k : α → Result) :
    orRaise s (.error f) k = .next (s.faulted f) := rfl

/-- A checked operation goes on with the value of its check, or leaves the fault state. -/
theorem orRaise_eq_next {α : Type} {s t : State} {c : Except SessionFault α} {k : α → Result}
    (h : orRaise s c k = .next t) : (∃ a, c = .ok a ∧ k a = .next t) ∨ ∃ f, c = .error f ∧ t = s.faulted f := by
  cases c with
  | ok a => exact .inl ⟨a, rfl, h⟩
  | error f => exact .inr ⟨f, rfl, by simpa using h.symm⟩

/-- An unknown opcode leaves the fault state under `halt` and moves on under `skip` (R266). -/
theorem unknownInstruction_eq (op : Word) (s : State) :
    unknownInstruction op s = .next (if s.cfg.unknownOpcodePolicy = .halt then s.faulted (.unknownInstruction s.pc op)
      else s.advance) := by
  unfold unknownInstruction raise
  cases s.cfg.unknownOpcodePolicy <;> rfl

/-! ### Range checks -/

theorem firstOutOfRange_eq_none {size a n : Nat} (h : n = 0 ∨ a + n ≤ size) : firstOutOfRange size a n = none := by
  induction n generalizing a with
  | zero => rfl
  | succ n ih => simp only [firstOutOfRange]; rw [if_pos (by omega), ih (by omega)]

/-- The lowest failing address is the start of the range or the size of the memory, whichever is higher. -/
theorem firstOutOfRange_eq_some {size a n : Nat} (hn : n ≠ 0) (h : size < a + n) :
    firstOutOfRange size a n = some (max a size) := by
  induction n generalizing a with
  | zero => exact absurd rfl hn
  | succ n ih =>
    simp only [firstOutOfRange]
    split
    · rw [ih (by omega) (by omega)]; congr 1; omega
    · congr 1; omega

theorem checkRange_ok (op : AccessOp) {a n : Nat} {s : State} (h : n = 0 ∨ a + n ≤ s.cfg.memorySize) :
    checkRange op a n s = .ok () := by
  simp [checkRange, firstOutOfRange_eq_none h]

theorem checkRange_error (op : AccessOp) {a n : Nat} {s : State} (hn : n ≠ 0) (h : s.cfg.memorySize < a + n) :
    checkRange op a n s = .error (.outOfRange (max a s.cfg.memorySize) op) := by
  simp [checkRange, firstOutOfRange_eq_some hn h]

theorem readBlock_ok {a n : Nat} {s : State} (h : n = 0 ∨ a + n ≤ s.cfg.memorySize) :
    readBlock a n s = .ok (s.bytesAt a n) := by
  simp [readBlock, checkRange_ok .read h, Except.map]

theorem readBlock_error {a n : Nat} {s : State} (hn : n ≠ 0) (h : s.cfg.memorySize < a + n) :
    readBlock a n s = .error (.outOfRange (max a s.cfg.memorySize) .read) := by
  simp [readBlock, checkRange_error .read hn h, Except.map]

theorem writeBlock_ok {a : Nat} {bs : List Byte} {s : State} (h : bs.length = 0 ∨ a + bs.length ≤ s.cfg.memorySize) :
    writeBlock a bs s = .ok (s.putBytes a bs) := by
  simp [writeBlock, checkRange_ok .write h, Except.map]

theorem writeBlock_error {a : Nat} {bs : List Byte} {s : State} (hn : bs.length ≠ 0) (h : s.cfg.memorySize < a + bs.length) :
    writeBlock a bs s = .error (.outOfRange (max a s.cfg.memorySize) .write) := by
  simp [writeBlock, checkRange_error .write hn h, Except.map]

/-- A block read answers the block and the range holds, or it answers a fault. -/
theorem readBlock_eq_ok {a n : Nat} {s : State} {bs : List Byte} (h : readBlock a n s = .ok bs) :
    (n = 0 ∨ a + n ≤ s.cfg.memorySize) ∧ bs = s.bytesAt a n := by
  by_cases hr : n = 0 ∨ a + n ≤ s.cfg.memorySize
  · rw [readBlock_ok hr] at h
    exact ⟨hr, (Except.ok.inj h).symm⟩
  · rw [readBlock_error (by omega) (by omega)] at h; cases h

/-- A block write answers the written state and the range holds, or it answers a fault. -/
theorem writeBlock_eq_ok {a : Nat} {bs : List Byte} {s t : State} (h : writeBlock a bs s = .ok t) :
    (bs.length = 0 ∨ a + bs.length ≤ s.cfg.memorySize) ∧ t = s.putBytes a bs := by
  by_cases hr : bs.length = 0 ∨ a + bs.length ≤ s.cfg.memorySize
  · rw [writeBlock_ok hr] at h
    exact ⟨hr, (Except.ok.inj h).symm⟩
  · rw [writeBlock_error (by omega) (by omega)] at h; cases h

/-! ### The stack -/

theorem push_ok {v : Word} {s : State} (h : s.stack.length ≠ s.cfg.stackSize) :
    push v s = .ok { s with stack := v :: s.stack } := by
  simp [push, h]

theorem push_full {v : Word} {s : State} (h : s.stack.length = s.cfg.stackSize) :
    push v s = .error (.stackOverflow s.pc) := by
  simp [push, h]

theorem pop_cons {v : Word} {rest : List Word} {s : State} (h : s.stack = v :: rest) :
    pop s = .ok (v, { s with stack := rest }) := by
  simp [pop, h]

theorem pop_nil {s : State} (h : s.stack = []) : pop s = .error (.stackUnderflow s.pc) := by
  simp [pop, h]

/-! ### Timers and keys -/

/-- A tick takes one off, stopping at 0 (R276). -/
theorem toNat_tick (t : Byte) : (tick t).toNat = t.toNat - 1 := by
  unfold tick
  split
  · next h => subst h; rfl
  · next h =>
    have : t.toNat ≠ 0 := fun e => h (BitVec.eq_of_toNat_eq e)
    have := t.isLt
    rw [BitVec.toNat_sub]; simp; omega

/-- The tone is on after a write of the sound timer exactly if the timer is then positive, if that held before (R34). -/
theorem toneAfter_toneEvent {old new : Byte} {b : Bool} (h : b = decide (old ≠ 0)) :
    toneAfter (toneEvent old new) b = decide (new ≠ 0) := by
  subst h
  unfold toneEvent toneAfter
  by_cases h1 : old = 0#8 <;> by_cases h2 : new = 0#8 <;> simp [h1, h2]

theorem mem_activeKeys (s : State) (k : Idx) : k ∈ s.activeKeys ↔ s.key[k] = true := by
  simp [State.activeKeys]

end Sys2Proof.Machine
end

