-- ==== Sys2Proof/Laws/Display.lean ====
section
/-! SUPPORT. The laws of the drawing primitives: a sprite flips the pixels of one list of coordinates, one after another; what a
flip does to every pixel; and that the shape of the grid is kept (rules R193 to R198). -/

namespace Sys2Proof.Machine

/-- The grid has `h` rows of `w` pixels (R36). -/
def FbShape (h w : Nat) (fb : Framebuffer) : Prop := fb.length = h ∧ ∀ row ∈ fb, row.length = w

/-- The coordinates that a sprite's drawn rows flip, in the order of rule R193. -/
def spriteCoords (cfg : Config) (x0 y0 : Nat) : Nat → List Byte → List (Nat × Nat)
  | _, [] => []
  | r, b :: bs =>
    (if cfg.verticalEdge = .clip ∧ y0 + r ≥ cfg.displayHeight then []
      else (rowColumns cfg.displayWidth x0 b).map fun c => ((y0 + r) % cfg.displayHeight, c)) ++
    spriteCoords cfg x0 y0 (r + 1) bs

/-- Flip pixels one after another, and say whether a lit one turned dark. -/
def flipAll : List (Nat × Nat) → Framebuffer → Framebuffer × Bool
  | [], fb => (fb, false)
  | p :: ps, fb => ((flipAll ps (togglePixel fb p.1 p.2)).1, getPixel fb p.1 p.2 || (flipAll ps (togglePixel fb p.1 p.2)).2)

theorem flipAll_append (ps qs : List (Nat × Nat)) (fb : Framebuffer) :
    flipAll (ps ++ qs) fb = ((flipAll qs (flipAll ps fb).1).1, (flipAll ps fb).2 || (flipAll qs (flipAll ps fb).1).2) := by
  induction ps generalizing fb with
  | nil => simp [flipAll]
  | cons p ps ih => simp [flipAll, ih, Bool.or_assoc]

theorem flipColumns_eq_flipAll (y : Nat) (cs : List Nat) (fb : Framebuffer) :
    flipColumns y cs fb = flipAll (cs.map fun c => (y, c)) fb := by
  induction cs generalizing fb with
  | nil => rfl
  | cons c cs ih => simp [flipColumns, flipAll, ih]

/-- Drawing a sprite is flipping the pixels of its coordinates in order. -/
theorem drawRows_eq_flipAll (cfg : Config) (x0 y0 r : Nat) (rows : List Byte) (fb : Framebuffer) :
    drawRows cfg x0 y0 r rows fb = flipAll (spriteCoords cfg x0 y0 r rows) fb := by
  induction rows generalizing r fb with
  | nil => rfl
  | cons b bs ih =>
    simp only [drawRows, spriteCoords]
    split
    · simp [ih]
    · simp [drawRow, flipColumns_eq_flipAll, flipAll_append, ih]

theorem drawSprite_eq_flipAll (cfg : Config) (vx vy : Byte) (rows : List Byte) (fb : Framebuffer) :
    drawSprite cfg vx vy rows fb =
      flipAll (spriteCoords cfg (vx.toNat % cfg.displayWidth) (vy.toNat % cfg.displayHeight) 0 rows) fb :=
  drawRows_eq_flipAll _ _ _ _ _ _

/-! ### Shape -/

theorem fbShape_togglePixel {h w : Nat} {fb : Framebuffer} (hs : FbShape h w fb) (y x : Nat) :
    FbShape h w (togglePixel fb y x) := by
  refine ⟨by simp [togglePixel, hs.1], fun row hr => ?_⟩
  obtain ⟨k, hk, rfl⟩ := List.getElem_of_mem hr
  simp only [togglePixel, List.getElem_modify]
  split
  · simp only [List.length_modify]; exact hs.2 _ (List.getElem_mem _)
  · exact hs.2 _ (List.getElem_mem _)

theorem fbShape_flipAll {h w : Nat} {fb : Framebuffer} (hs : FbShape h w fb) (ps : List (Nat × Nat)) :
    FbShape h w (flipAll ps fb).1 := by
  induction ps generalizing fb with
  | nil => exact hs
  | cons p ps ih => exact ih (fbShape_togglePixel hs p.1 p.2)

/-- Drawing a sprite keeps the shape of the grid. -/
theorem fbShape_drawSprite {h w : Nat} {fb : Framebuffer} (hs : FbShape h w fb) (cfg : Config) (vx vy : Byte)
    (rows : List Byte) : FbShape h w (drawSprite cfg vx vy rows fb).1 := by
  rw [drawSprite_eq_flipAll]; exact fbShape_flipAll hs _

theorem fbShape_dark (cfg : Config) : FbShape cfg.displayHeight cfg.displayWidth (darkFramebuffer cfg) := by
  refine ⟨by simp [darkFramebuffer], fun row hr => ?_⟩
  rw [List.eq_of_mem_replicate hr]; simp

/-! ### Pixels -/

/-- No pixel outside the grid is lit. -/
theorem getPixel_outside {h w : Nat} {fb : Framebuffer} (hs : FbShape h w fb) {y x : Nat} (ho : h ≤ y ∨ w ≤ x) :
    getPixel fb y x = false := by
  unfold getPixel
  by_cases hy : y < fb.length
  · have hrow : (fb.getD y []) = fb[y] := by simp [List.getD_eq_getElem?_getD, hy]
    have := hs.2 fb[y] (List.getElem_mem hy)
    have hx : fb[y].length ≤ x := by have := hs.1; omega
    rw [hrow, List.getD_eq_getElem?_getD, List.getElem?_eq_none hx]; rfl
  · have hrow : (fb.getD y []) = [] := by simp [List.getD_eq_getElem?_getD, hy]
    rw [hrow]; rfl

/-- What flipping one pixel of the grid does to every pixel. -/
theorem getPixel_togglePixel {h w : Nat} {fb : Framebuffer} (hs : FbShape h w fb) {y x : Nat} (hy : y < h) (hx : x < w)
    (y' x' : Nat) :
    getPixel (togglePixel fb y x) y' x' = (getPixel fb y' x' ^^ decide (y' = y ∧ x' = x)) := by
  have hy1 : y < fb.length := by rw [hs.1]; exact hy
  have hx1 : x < (fb[y]).length := by rw [hs.2 _ (List.getElem_mem hy1)]; exact hx
  unfold getPixel togglePixel
  by_cases e : y' = y
  · subst e
    by_cases e' : x' = x
    · subst e'
      simp [List.getD_eq_getElem?_getD, hy1, hx1]
    · simp [List.getD_eq_getElem?_getD, hy1, e', Ne.symm e']
  · simp [List.getD_eq_getElem?_getD, e, Ne.symm e]

/-- Flipping pixels of the grid one after another flips a pixel as often as it is listed. -/
theorem getPixel_flipAll {h w : Nat} {fb : Framebuffer} (hs : FbShape h w fb) {ps : List (Nat × Nat)}
    (hin : ∀ p ∈ ps, p.1 < h ∧ p.2 < w) (y x : Nat) :
    getPixel (flipAll ps fb).1 y x = (getPixel fb y x ^^ decide (ps.count (y, x) % 2 = 1)) := by
  induction ps generalizing fb with
  | nil => simp [flipAll]
  | cons p ps ih =>
    obtain ⟨hy, hx⟩ := hin p (List.mem_cons_self ..)
    rw [flipAll, ih (fbShape_togglePixel hs _ _) fun q hq => hin q (List.mem_cons_of_mem _ hq),
      getPixel_togglePixel hs hy hx, List.count_cons]
    by_cases e : p = (y, x)
    · subst e
      have : ∀ n : Nat, decide ((n + 1) % 2 = 1) = !decide (n % 2 = 1) := fun n => by
        rcases Nat.mod_two_eq_zero_or_one n with h | h <;> simp [Nat.add_mod, h]
      simp [this]
    · have : ¬(y = p.1 ∧ x = p.2) := fun ⟨a, b⟩ => e (Prod.ext a.symm b.symm)
      simp [this, e]

/-- A lit pixel turns dark exactly if a lit pixel is listed, or a dark one is listed twice. -/
theorem flipAll_hit {h w : Nat} {fb : Framebuffer} (hs : FbShape h w fb) {ps : List (Nat × Nat)}
    (hin : ∀ p ∈ ps, p.1 < h ∧ p.2 < w) :
    (flipAll ps fb).2 = true ↔
      ∃ q : Nat × Nat, (getPixel fb q.1 q.2 = true ∧ 1 ≤ ps.count q) ∨ (getPixel fb q.1 q.2 = false ∧ 2 ≤ ps.count q) := by
  induction ps generalizing fb with
  | nil => simp [flipAll]
  | cons p ps ih =>
    obtain ⟨hy, hx⟩ := hin p (List.mem_cons_self ..)
    rw [flipAll, Bool.or_eq_true, ih (fbShape_togglePixel hs _ _) fun q hq => hin q (List.mem_cons_of_mem _ hq)]
    constructor
    · rintro (hl | ⟨q, hq⟩)
      · exact ⟨p, .inl ⟨hl, by simp⟩⟩
      · rw [getPixel_togglePixel hs hy hx] at hq
        by_cases e : q = p
        · subst e
          cases hpix : getPixel fb q.1 q.2
          · refine ⟨q, .inr ⟨hpix, ?_⟩⟩
            simp [hpix] at hq; simp; omega
          · exact ⟨q, .inl ⟨hpix, by simp⟩⟩
        · have hne : ¬(q.1 = p.1 ∧ q.2 = p.2) := fun ⟨a, b⟩ => e (Prod.ext a b)
          refine ⟨q, ?_⟩
          simpa [hne, Ne.symm e] using hq
    · rintro ⟨q, hq⟩
      by_cases e : q = p
      · subst e
        cases hpix : getPixel fb q.1 q.2
        · right
          refine ⟨q, .inl ⟨by rw [getPixel_togglePixel hs hy hx]; simp [hpix], ?_⟩⟩
          simp [hpix] at hq; exact List.one_le_count_iff.2 hq
        · exact .inl rfl
      · right
        have hne : ¬(q.1 = p.1 ∧ q.2 = p.2) := fun ⟨a, b⟩ => e (Prod.ext a b)
        refine ⟨q, ?_⟩
        rw [getPixel_togglePixel hs hy hx]
        simpa [hne, Ne.symm e] using hq

/-- Two grids of one shape with the same pixels are the same data. -/
theorem fb_ext {h w : Nat} {f g : Framebuffer} (hf : FbShape h w f) (hg : FbShape h w g)
    (he : ∀ y x, y < h → x < w → getPixel f y x = getPixel g y x) : f = g := by
  refine List.ext_getElem (hf.1.trans hg.1.symm) fun y h1 h2 => ?_
  refine List.ext_getElem ((hf.2 _ (List.getElem_mem h1)).trans (hg.2 _ (List.getElem_mem h2)).symm) fun x h3 h4 => ?_
  have := he y x (by rw [← hf.1]; exact h1) (by rw [← hf.2 _ (List.getElem_mem h1)]; exact h3)
  simpa [getPixel, List.getD_eq_getElem?_getD, h1, h2, h3, h4] using this

end Sys2Proof.Machine
end

