-- ==== Sys2Proof/Laws/PerInstr.lean ====
section
/-! SUPPORT. Statements for all instructions, one lemma a constructor. `TablePattern` says that an instruction's word carries
its row's `match` under its row's `mask` (R104). -/

namespace Sys2Proof.Laws.TablePattern

/-- The word of the instruction matches its row of the opcode table. -/
def Statement (i : Instr) : Prop := encode i &&& tableMask i = tableMatch i

theorem sys (nnn : Addr12) : Statement (.sys nnn) := (wordNNN_mask _ _).trans rfl

theorem cls : Statement (.cls) := rfl

theorem ret : Statement (.ret) := rfl

theorem jp (nnn : Addr12) : Statement (.jp nnn) := (wordNNN_mask _ _).trans rfl

theorem call (nnn : Addr12) : Statement (.call nnn) := (wordNNN_mask _ _).trans rfl

theorem seByte (x : Idx) (kk : Byte) : Statement (.seByte x kk) := (wordXKK_mask _ _ _).trans rfl

theorem sneByte (x : Idx) (kk : Byte) : Statement (.sneByte x kk) := (wordXKK_mask _ _ _).trans rfl

theorem seReg (x y : Idx) : Statement (.seReg x y) := (wordXYN_subMask _ _ _ _).trans rfl

theorem ldByte (x : Idx) (kk : Byte) : Statement (.ldByte x kk) := (wordXKK_mask _ _ _).trans rfl

theorem addByte (x : Idx) (kk : Byte) : Statement (.addByte x kk) := (wordXKK_mask _ _ _).trans rfl

theorem ldReg (x y : Idx) : Statement (.ldReg x y) := (wordXYN_subMask _ _ _ _).trans rfl

theorem orReg (x y : Idx) : Statement (.orReg x y) := (wordXYN_subMask _ _ _ _).trans rfl

theorem andReg (x y : Idx) : Statement (.andReg x y) := (wordXYN_subMask _ _ _ _).trans rfl

theorem xorReg (x y : Idx) : Statement (.xorReg x y) := (wordXYN_subMask _ _ _ _).trans rfl

theorem addReg (x y : Idx) : Statement (.addReg x y) := (wordXYN_subMask _ _ _ _).trans rfl

theorem subReg (x y : Idx) : Statement (.subReg x y) := (wordXYN_subMask _ _ _ _).trans rfl

theorem shr (x y : Idx) : Statement (.shr x y) := (wordXYN_subMask _ _ _ _).trans rfl

theorem subn (x y : Idx) : Statement (.subn x y) := (wordXYN_subMask _ _ _ _).trans rfl

theorem shl (x y : Idx) : Statement (.shl x y) := (wordXYN_subMask _ _ _ _).trans rfl

theorem sneReg (x y : Idx) : Statement (.sneReg x y) := (wordXYN_subMask _ _ _ _).trans rfl

theorem ldI (nnn : Addr12) : Statement (.ldI nnn) := (wordNNN_mask _ _).trans rfl

theorem jpV0 (nnn : Addr12) : Statement (.jpV0 nnn) := (wordNNN_mask _ _).trans rfl

theorem rnd (x : Idx) (kk : Byte) : Statement (.rnd x kk) := (wordXKK_mask _ _ _).trans rfl

theorem drw (x y n : Idx) : Statement (.drw x y n) := (wordXYN_mask _ _ _ _).trans rfl

theorem skp (x : Idx) : Statement (.skp x) := (wordXKK_subMask _ _ _).trans rfl

theorem sknp (x : Idx) : Statement (.sknp x) := (wordXKK_subMask _ _ _).trans rfl

theorem ldVxDT (x : Idx) : Statement (.ldVxDT x) := (wordXKK_subMask _ _ _).trans rfl

theorem ldVxK (x : Idx) : Statement (.ldVxK x) := (wordXKK_subMask _ _ _).trans rfl

theorem ldDTVx (x : Idx) : Statement (.ldDTVx x) := (wordXKK_subMask _ _ _).trans rfl

theorem ldSTVx (x : Idx) : Statement (.ldSTVx x) := (wordXKK_subMask _ _ _).trans rfl

theorem addIVx (x : Idx) : Statement (.addIVx x) := (wordXKK_subMask _ _ _).trans rfl

theorem ldFVx (x : Idx) : Statement (.ldFVx x) := (wordXKK_subMask _ _ _).trans rfl

theorem ldBVx (x : Idx) : Statement (.ldBVx x) := (wordXKK_subMask _ _ _).trans rfl

theorem storeRegs (x : Idx) : Statement (.storeRegs x) := (wordXKK_subMask _ _ _).trans rfl

theorem loadRegs (x : Idx) : Statement (.loadRegs x) := (wordXKK_subMask _ _ _).trans rfl

end Sys2Proof.Laws.TablePattern
end

