-- ==== Sys2Proof/Laws/Step.lean ====
section
/-! SUPPORT. What a check, an instruction, the CPU and a step can do, said once, so that an invariant or a frame is proved from
these and unfolds no meaning. -/

namespace Sys2Proof.Machine

/-- A check either goes on with its value or leaves the faulted state. -/
theorem orRaise_cases {α} {s t : State} {c : Except SessionFault α} {k : α → Result} (h : orRaise s c k = .next t) :
    (∃ a, c = .ok a ∧ k a = .next t) ∨ ∃ f, t = s.faulted f := by
  cases c with
  | ok a => exact .inl ⟨a, rfl, h⟩
  | error f => right; refine ⟨f, ?_⟩; cases h; rfl

/-- An unknown opcode advances `pc` or leaves the faulted state. -/
theorem unknownInstruction_cases {op} {s t : State} (h : unknownInstruction op s = .next t) : t = s.advance ∨ ∃ f, t = s.faulted f := by
  unfold unknownInstruction at h; split at h
  · right; cases h; exact ⟨_, rfl⟩
  · left; cases h; rfl

/-- What each instruction does where it raises no fault: the next state, with the computed values left open where no frame
depends on them. -/
def Effect (i : Instr) (s t : State) : Prop :=
  match i with
  | .sys _ => t = s.advance
  | .cls => t = { s with fb := darkFramebuffer s.cfg, collision := false }.advance
  | .ret => ∃ a rest, s.stack = a :: rest ∧ t = { s with stack := rest, pc := a + 2 }
  | .jp nnn => t = s.jumpTo (zext16 nnn)
  | .call nnn => s.stack.length ≠ s.cfg.stackSize ∧ t = { s with stack := s.pc :: s.stack, pc := zext16 nnn }
  | .seByte x kk => t = s.skipIf (decide (s.reg x = kk))
  | .sneByte x kk => t = s.skipIf (decide (s.reg x ≠ kk))
  | .seReg x y => t = s.skipIf (decide (s.reg x = s.reg y))
  | .sneReg x y => t = s.skipIf (decide (s.reg x ≠ s.reg y))
  | .ldByte x kk => t = (s.setReg x kk).advance
  | .addByte x kk => t = (s.setReg x (s.reg x + kk)).advance
  | .ldReg x y => t = (s.setReg x (s.reg y)).advance
  | .orReg x y => t = (s.setReg x (s.reg x ||| s.reg y)).advance
  | .andReg x y => t = (s.setReg x (s.reg x &&& s.reg y)).advance
  | .xorReg x y => t = (s.setReg x (s.reg x ^^^ s.reg y)).advance
  | .addReg x _ => ∃ r f, t = (s.setResultAndFlag x r f).advance
  | .subReg x _ => ∃ r f, t = (s.setResultAndFlag x r f).advance
  | .shr x _ => ∃ r f, t = (s.setResultAndFlag x r f).advance
  | .subn x _ => ∃ r f, t = (s.setResultAndFlag x r f).advance
  | .shl x _ => ∃ r f, t = (s.setResultAndFlag x r f).advance
  | .ldI nnn => t = { s with i := zext16 nnn }.advance
  | .jpV0 nnn => t = s.jumpTo (zext16 nnn + (s.reg 0).setWidth 16)
  | .rnd x kk => t = s.setRandom x kk (Config.randomByte s.draws)
  | .drw x y _ => t = s.advance ∨ ∃ rows, t = (s.withSprite x y rows).consumeCollision.advance
  | .skp _ => ∃ c, t = s.skipIf c
  | .sknp _ => ∃ c, t = s.skipIf c
  | .ldVxDT x => t = (s.setReg x s.dt).advance
  | .ldVxK x => t = s ∨ ∃ k, t = s.setKeyPressed x k
  | .ldDTVx x => t = { s with dt := s.reg x }.advance
  | .ldSTVx x => t = (s.setSoundTimer (s.reg x)).advance
  | .addIVx _ => ∃ w, t = { s with i := w }.advance
  | .ldFVx _ => ∃ w, t = { s with i := w }.advance
  | .ldBVx _ => ∃ bs, (bs.length = 0 ∨ s.i.toNat + bs.length ≤ s.cfg.memorySize) ∧ t = (s.putBytes s.i.toNat bs).advance
  | .storeRegs _ => ∃ bs w, (bs.length = 0 ∨ s.i.toNat + bs.length ≤ s.cfg.memorySize) ∧ t = { s.putBytes s.i.toNat bs with i := w }.advance
  | .loadRegs x => ∃ bs w, bs.length = x.val + 1 ∧ t = { s.setRegs bs with i := w }.advance

/-- An instruction that answers a next state raised a fault or had its effect. -/
theorem exec_cases {i : Instr} {s t : State} (h : exec i s = .next t) : (∃ f, t = s.faulted f) ∨ Effect i s t := by
  cases i with
  | sys nnn => exact (unknownInstruction_cases h).symm
  | ret =>
    rcases orRaise_cases h with ⟨⟨a, u⟩, h1, h2⟩ | h
    · right
      unfold pop at h1; split at h1
      · cases h1
      · next v rest e => cases h1; cases h2; exact ⟨_, _, e, rfl⟩
    · exact .inl h
  | call nnn =>
    rcases orRaise_cases h with ⟨u, h1, h2⟩ | h
    · right
      unfold push at h1; split at h1
      · cases h1
      · next e => cases h1; cases h2; exact ⟨e, rfl⟩
    · exact .inl h
  | skp x => 
    rcases orRaise_cases h with ⟨u, h1, h2⟩ | h
    · right; cases h2; exact ⟨_, rfl⟩
    · exact .inl h
  | sknp x => 
    rcases orRaise_cases h with ⟨u, h1, h2⟩ | h
    · right; cases h2; exact ⟨_, rfl⟩
    · exact .inl h
  | drw x y n =>
    rw [exec, execDrw] at h; split at h
    · rcases unknownInstruction_cases h with h | h
      · exact .inr (.inl h)
      · exact .inl h
    · rcases orRaise_cases h with ⟨u, h1, h2⟩ | h
      · right; right; cases h2; exact ⟨_, rfl⟩
      · exact .inl h
  | ldVxK x =>
    right
    rw [exec, execLdVxK] at h; split at h
    · cases h; exact .inl rfl
    · cases h; exact .inr ⟨_, rfl⟩
  | ldBVx x => 
    rcases orRaise_cases h with ⟨u, h1, h2⟩ | h
    · right; obtain ⟨a, rfl⟩ := writeBlock_eq_ok h1; cases h2; exact ⟨_, a, rfl⟩
    · exact .inl h
  | storeRegs x => 
    rcases orRaise_cases h with ⟨u, h1, h2⟩ | h
    · right; obtain ⟨a, rfl⟩ := writeBlock_eq_ok h1; cases h2; exact ⟨_, _, a, rfl⟩
    · exact .inl h
  | loadRegs x => 
    rcases orRaise_cases h with ⟨u, h1, h2⟩ | h
    · right; cases h2; exact ⟨_, _, (by rw [(readBlock_eq_ok h1).2, State.length_bytesAt]), rfl⟩
    · exact .inl h
  | addReg x y => right; cases h; exact ⟨_, _, rfl⟩
  | subReg x y => right; cases h; exact ⟨_, _, rfl⟩
  | shr x y => right; cases h; exact ⟨_, _, rfl⟩
  | shl x y => right; cases h; exact ⟨_, _, rfl⟩
  | subn x y => right; cases h; exact ⟨_, _, rfl⟩
  | addIVx x => right; cases h; exact ⟨_, rfl⟩
  | ldFVx x => right; cases h; exact ⟨_, rfl⟩
  | _ => right; cases h; rfl

/-- A step that answers a next state is an agent's step of a running session with a legal configuration. -/
theorem step_cases {s t : State} (h : step s = .next t) : s.status = .running ∧ legalConfig s.cfg = true ∧ agentStep s.nextAgent s.popAgenda = .next t := by
  unfold step at h; split at h
  · next hl =>
    split at h
    · next hs => exact ⟨hs, hl, h⟩
    · cases h
    · cases h
  · cases h

/-- The CPU faults, skips an unknown word, or runs an instruction. -/
theorem cpuStep_cases {s t : State} (h : cpuStep s = .next t) : (∃ f, t = s.faulted f) ∨ t = s.advance ∨ ∃ i, exec i s = .next t := by
  rcases orRaise_cases h with ⟨op, -, h⟩ | h
  · unfold runWord at h; split at h
    · exact .inr (.inr ⟨_, h⟩)
    · rcases unknownInstruction_cases h with h | h
      · exact .inr (.inl h)
      · exact .inl h
  · exact .inl h

end Sys2Proof.Machine
end

