-- ==== Sys2Proof/Tests/Slice0.lean ====
section
/-! SUPPORT. The model's own tests: the refusals of WellFormed, a word for every constructor, one or two single steps for each
instruction (expected results from spec/95_test_vectors.md and the rules' worked examples), and for each statement with
hypotheses a named witness that meets them. -/

namespace Sys2Proof.Tests

set_option Elab.async false
set_option maxRecDepth 10000

open Sys2Proof.Machine

/-! ### Helpers -/

/-- The outcome is a next state with a property. -/
def after (r : Result) (p : State → Bool) : Bool :=
  match r with
  | .next t => p t
  | _ => false

/-- One step from `s` with a word placed at `pc`. -/
def runs (w : Nat) (s : State) (p : State → Bool) : Bool := after (step (s.withFetchWord 16 w)) p

/-- The reset state with some registers written. -/
def withRegs (rs : List (Idx × Byte)) : State := rs.foldl (fun s r => s.setReg r.1 r.2) State.reset

/-- The state in a compatibility mode. -/
def inMode (m : SystemMode) (s : State) : State := { s with cfg := { s.cfg with systemMode := m } }

/-- The state with the policy that skips unknown opcodes. -/
def skipping (s : State) : State := { s with cfg := { s.cfg with unknownOpcodePolicy := .skip } }

/-- The state with `I` set. -/
def withI (a : Word) (s : State) : State := { s with i := a }

/-- The state with one lit pixel. -/
def lit (y x : Nat) (s : State) : State := { s with fb := togglePixel s.fb y x }

/-- The state with the given key held down. -/
def withKey (k : Idx) (s : State) : State := { s with key := s.key.set k true }

/-- The lit pixels of the first rows, as (row, column) pairs. -/
def litIn (rows : List Nat) (s : State) : List (Nat × Nat) :=
  rows.flatMap fun y => ((List.range s.cfg.displayWidth).filter fun x => getPixel s.fb y x).map fun x => (y, x)

/-! ### WellFormed (R96, R104, R108) -/

theorem test_ill_formed_refused :
    (Instr.sys 0x0E0).wellFormed .chip8 = false ∧ (Instr.sys 0x0EE).wellFormed .chip48 = false ∧
    (Instr.drw 1 2 0).wellFormed .superChip = false := by decide +kernel

theorem test_well_formed_accepted :
    (Instr.sys 0x0E1).wellFormed .chip8 = true ∧ (Instr.drw 1 2 0).wellFormed .chip8 = true ∧
    (Instr.drw 1 2 0).wellFormed .chip48 = true ∧ (Instr.drw 1 2 1).wellFormed .superChip = true := by decide +kernel

/-! ### Decoding: words written out from the patterns of R104 -/

theorem test_decode_control :
    decode 0x0123 .chip8 = .ok (.sys 0x123) ∧ decode 0x0000 .chip8 = .ok (.sys 0) ∧ decode 0x00E0 .chip8 = .ok .cls ∧
    decode 0x00EE .chip48 = .ok .ret ∧ decode 0x1204 .chip8 = .ok (.jp 0x204) ∧
    decode 0x2321 .chip8 = .ok (.call 0x321) ∧ decode 0xB300 .superChip = .ok (.jpV0 0x300) :=
  ⟨rfl, rfl, rfl, rfl, rfl, rfl, rfl⟩

theorem test_decode_skips :
    decode 0x3301 .chip8 = .ok (.seByte 3 0x01) ∧ decode 0x4AFF .chip8 = .ok (.sneByte 10 0xFF) ∧
    decode 0x5120 .chip8 = .ok (.seReg 1 2) ∧ decode 0x9120 .superChip = .ok (.sneReg 1 2) ∧
    decode 0xE59E .chip8 = .ok (.skp 5) ∧ decode 0xE5A1 .chip8 = .ok (.sknp 5) :=
  ⟨rfl, rfl, rfl, rfl, rfl, rfl⟩

theorem test_decode_immediate :
    decode 0x6A2F .chip8 = .ok (.ldByte 10 0x2F) ∧ decode 0x7101 .chip8 = .ok (.addByte 1 0x01) ∧
    decode 0xC00F .chip8 = .ok (.rnd 0 0x0F) ∧ decode 0xA300 .chip8 = .ok (.ldI 0x300) :=
  ⟨rfl, rfl, rfl, rfl⟩

theorem test_decode_group8 :
    decode 0x8120 .chip8 = .ok (.ldReg 1 2) ∧ decode 0x8121 .chip8 = .ok (.orReg 1 2) ∧
    decode 0x8122 .chip8 = .ok (.andReg 1 2) ∧ decode 0x8123 .chip8 = .ok (.xorReg 1 2) ∧
    decode 0x8124 .chip8 = .ok (.addReg 1 2) ∧ decode 0x8125 .chip8 = .ok (.subReg 1 2) ∧
    decode 0x8126 .chip8 = .ok (.shr 1 2) ∧ decode 0x8127 .chip8 = .ok (.subn 1 2) ∧
    decode 0x812E .chip8 = .ok (.shl 1 2) :=
  ⟨rfl, rfl, rfl, rfl, rfl, rfl, rfl, rfl, rfl⟩

theorem test_decode_draw_by_mode :
    decode 0xD12F .chip8 = .ok (.drw 1 2 15) ∧ decode 0xD120 .chip8 = .ok (.drw 1 2 0) ∧
    decode 0xD120 .chip48 = .ok (.drw 1 2 0) ∧ decode 0xD120 .superChip = .error (.unknown .dxy0SuperChip 0xD120) :=
  ⟨rfl, rfl, rfl, rfl⟩

theorem test_decode_groupF :
    decode 0xF107 .chip8 = .ok (.ldVxDT 1) ∧ decode 0xF30A .chip8 = .ok (.ldVxK 3) ∧
    decode 0xF015 .chip8 = .ok (.ldDTVx 0) ∧ decode 0xF018 .chip8 = .ok (.ldSTVx 0) ∧
    decode 0xF21E .chip8 = .ok (.addIVx 2) ∧ decode 0xF029 .chip8 = .ok (.ldFVx 0) ∧
    decode 0xF033 .chip8 = .ok (.ldBVx 0) ∧ decode 0xF255 .chip8 = .ok (.storeRegs 2) ∧
    decode 0xFF65 .chip8 = .ok (.loadRegs 15) :=
  ⟨rfl, rfl, rfl, rfl, rfl, rfl, rfl, rfl, rfl⟩

/-- V-F5 to V-F7. -/
theorem test_decode_rejects :
    decode 0x5121 .chip8 = .error (.unknown .group5 0x5121) ∧ decode 0x8128 .chip8 = .error (.unknown .group8 0x8128) ∧
    decode 0x812F .chip8 = .error (.unknown .group8 0x812F) ∧ decode 0x9121 .chip8 = .error (.unknown .group9 0x9121) ∧
    decode 0xE19F .chip8 = .error (.unknown .groupE 0xE19F) ∧ decode 0xF130 .chip8 = .error (.unknown .groupF 0xF130) ∧
    decode 0xF175 .superChip = .error (.unknown .groupF 0xF175) ∧ decodeBytes .chip8 [0x12] = .error .truncated :=
  ⟨rfl, rfl, rfl, rfl, rfl, rfl, rfl, rfl⟩

/-- R105 to R107: literals, the omitted operand of SHR, operands that do not fit, and data. -/
theorem test_assemble_line :
    assembleLine "LD VA, #2F" = some [0x6A, 0x2F] ∧ assembleLine "SHR V1" = some [0x81, 0x06] ∧
    assembleLine "LD V0, 0x100" = none ∧ assembleLine "JP 0x1000" = none ∧ assembleLine "DRW V0, V1, 0x10" = none ∧
    assembleLine "DB 0xF0, $00" = some [0xF0, 0x00] := by decide +kernel

/-- The bytes of programs P2 and P4. -/
theorem test_assemble_programs :
    assembleProgram ["LD V0, 0xFE", "LD I, 0x300", "CALL 0x20A", "LD V2, [I]", "JP 0x208", "LD B, V0", "RET"] =
      some [0x60, 0xFE, 0xA3, 0x00, 0x22, 0x0A, 0xF2, 0x65, 0x12, 0x08, 0xF0, 0x33, 0x00, 0xEE] ∧
    assembleProgram ["LD V1, 0x81", "SHR V1, V2", "LD VA, V1", "SUB V3, V4", "SUBN V4, V3", "ADD VF, V4"] =
      some [0x61, 0x81, 0x81, 0x26, 0x8A, 0x10, 0x83, 0x45, 0x84, 0x37, 0x8F, 0x44] := by decide +kernel

/-! ### Session start and the step -/

/-- V-F1: a fetch at an odd address is like any other. -/
theorem test_fetch_odd_pc : runs 0x6012 { State.reset with pc := 0x201 } (fun t => t.reg 0 == 0x12 && t.pc == 0x203) = true := by
  decide +kernel

/-- V-F2, V-F3: both fetches report address 0x1000. -/
theorem test_fetch_beyond_memory :
    after (step { State.reset with pc := 0xFFF }) (fun t => t.status == .fatal (.outOfRange 0x1000 .fetch) && t.pc == 0xFFF) = true ∧
    after (step { State.reset with pc := 0x1000 }) (fun t => t.status == .fatal (.outOfRange 0x1000 .fetch) && t.pc == 0x1000) = true := by
  decide +kernel

/-- V-F4: the last word of memory is fetched, and `pc` may leave memory. -/
theorem test_fetch_last_word : runs 0x00E0 { State.reset with pc := 0xFFE } (fun t => t.status == .running && t.pc == 0x1000) = true := by
  decide +kernel

/-- V-F11 and P7. -/
theorem test_unknown_policy :
    runs 0xFFFF (skipping { State.reset with pc := 0x300 }) (fun t => t.status == .running && t.pc == 0x302) = true ∧
    after (step State.reset) (fun t => t.status == .fatal (.unknownInstruction 0x200 0x0000) && t.pc == 0x200) = true := by decide +kernel

/-- R8: a register count other than 16, and a font that overlaps the program. -/
theorem test_illegal_configuration :
    startSession { Config.default with numberOfGeneralPurposeRegisters := 8 } [] = .refused .illegalConfiguration ∧
    startSession { Config.default with fontBaseAddress := 0x1B1 } [] = .refused .illegalConfiguration := ⟨rfl, rfl⟩

/-- R306: the first byte of digit 0 and the last of digit F; R262: the fault codes. -/
theorem test_font_and_codes :
    State.reset.byteAt 0 = 0xF0 ∧ State.reset.byteAt 79 = 0x80 ∧ State.reset.byteAt 80 = 0 ∧
    [SessionFault.outOfRange 0 .read, .stackOverflow 0, .stackUnderflow 0, .unknownInstruction 0 0].map faultCode = [1, 2, 3, 4] := by
  decide +kernel

/-! ### Control transfer -/

theorem test_sys : runs 0x0123 (skipping State.reset) (fun t => t.pc == 0x202) = true ∧
    runs 0x0123 State.reset (fun t => t.status == .fatal (.unknownInstruction 0x200 0x0123) && t.pc == 0x200) = true := by decide +kernel

theorem test_jp : runs 0x1204 { State.reset with pc := 0x20A } (fun t => t.pc == 0x204) = true := by decide +kernel

theorem test_call : runs 0x2321 State.reset (fun t => t.pc == 0x321 && t.stack == [0x200]) = true ∧
    runs 0x2400 { State.reset with stack := List.replicate 16 0x200 }
      (fun t => t.status == .fatal (.stackOverflow 0x200) && t.pc == 0x200 && t.stack.length == 16) = true := by decide +kernel

theorem test_ret : runs 0x00EE { State.reset with pc := 0x212, stack := [0x204] } (fun t => t.pc == 0x206 && t.stack == []) = true ∧
    runs 0x00EE State.reset (fun t => t.status == .fatal (.stackUnderflow 0x200) && t.pc == 0x200) = true := by decide +kernel

theorem test_ret_wraps : after (exec .ret { State.reset with stack := [0xFFFE] }) (fun t => t.pc == 0x0000) = true := by decide +kernel

theorem test_jpV0 : runs 0xB300 (withRegs [(0, 0x04)]) (fun t => t.pc == 0x304) = true ∧
    runs 0xBFFF (withRegs [(0, 0xFF)]) (fun t => t.pc == 0x10FE) = true := by decide +kernel

/-! ### Arithmetic and logic -/

theorem test_ldByte : runs 0x6A2F State.reset (fun t => t.reg 10 == 0x2F && t.pc == 0x202) = true := by decide +kernel

theorem test_addByte : runs 0x7101 (withRegs [(1, 0xFF), (15, 0x07)]) (fun t => t.reg 1 == 0x00 && t.reg 15 == 0x07) = true := by decide +kernel

theorem test_ldReg : runs 0x8120 (withRegs [(2, 0x7E)]) (fun t => t.reg 1 == 0x7E && t.reg 2 == 0x7E) = true := by decide +kernel

theorem test_orReg : runs 0x8011 (withRegs [(0, 0xF0), (1, 0x0F), (15, 0x55)]) (fun t => t.reg 0 == 0xFF && t.reg 15 == 0x55) = true := by
  decide +kernel

theorem test_andReg : runs 0x8012 (withRegs [(0, 0xF0), (1, 0x3C)]) (fun t => t.reg 0 == 0x30) = true := by decide +kernel

theorem test_xorReg : runs 0x8013 (withRegs [(0, 0xF0), (1, 0x3C)]) (fun t => t.reg 0 == 0xCC) = true ∧
    runs 0x8003 (withRegs [(0, 0x33)]) (fun t => t.reg 0 == 0x00) = true := by decide +kernel

theorem test_addReg : runs 0x8014 (withRegs [(0, 0xC8), (1, 0x64)]) (fun t => t.reg 0 == 0x2C && t.reg 15 == 1) = true ∧
    runs 0x8014 (withRegs [(0, 0x10), (1, 0x20)]) (fun t => t.reg 0 == 0x30 && t.reg 15 == 0) = true := by decide +kernel

/-- V-A11: the carry wins over the result where VF is the destination. -/
theorem test_addReg_flag_wins : runs 0x8F14 (withRegs [(15, 0xFF), (1, 0x01)]) (fun t => t.reg 15 == 1) = true := by decide +kernel

theorem test_subReg : runs 0x8015 (withRegs [(0, 0x05), (1, 0x07)]) (fun t => t.reg 0 == 0xFE && t.reg 15 == 0) = true ∧
    runs 0x8015 (withRegs [(0, 0x07), (1, 0x07)]) (fun t => t.reg 0 == 0x00 && t.reg 15 == 1) = true := by decide +kernel

theorem test_subn : runs 0x8017 (withRegs [(0, 0x05), (1, 0x07)]) (fun t => t.reg 0 == 0x02 && t.reg 15 == 1) = true ∧
    runs 0x8017 (withRegs [(0, 0x07), (1, 0x05)]) (fun t => t.reg 0 == 0xFE && t.reg 15 == 0) = true := by decide +kernel

theorem test_shr : runs 0x8126 (withRegs [(1, 0x81), (2, 0x03)]) (fun t => t.reg 1 == 0x01 && t.reg 15 == 1 && t.reg 2 == 0x03) = true ∧
    runs 0x8126 (inMode .chip48 (withRegs [(1, 0x81), (2, 0x03)])) (fun t => t.reg 1 == 0x40 && t.reg 15 == 1) = true := by decide +kernel

theorem test_shl : runs 0x812E (withRegs [(1, 0x81), (2, 0x03)]) (fun t => t.reg 1 == 0x06 && t.reg 15 == 0) = true ∧
    runs 0x812E (inMode .superChip (withRegs [(1, 0x81), (2, 0x03)])) (fun t => t.reg 1 == 0x02 && t.reg 15 == 1) = true := by decide +kernel

/-- V-A22: with a mask of 0 the result is 0, whatever byte is drawn. -/
theorem test_rnd_mask_zero : ∃ t, exec (.rnd 0 0) (withRegs [(0, 0xAA)]) = .next t ∧ t.reg 0 = 0 :=
  ⟨_, rfl, BitVec.and_zero⟩

/-! ### Skips -/

theorem test_seByte : runs 0x3301 (withRegs [(3, 0x01)]) (fun t => t.pc == 0x204) = true ∧
    runs 0x3301 (withRegs [(3, 0x02)]) (fun t => t.pc == 0x202) = true := by decide +kernel

theorem test_sneByte : runs 0x4301 (withRegs [(3, 0x01)]) (fun t => t.pc == 0x202) = true ∧
    runs 0x4301 (withRegs [(3, 0x02)]) (fun t => t.pc == 0x204) = true := by decide +kernel

theorem test_seReg : runs 0x5120 (withRegs [(1, 0x40), (2, 0x40)]) (fun t => t.pc == 0x204) = true ∧
    runs 0x5120 (withRegs [(1, 0x40), (2, 0x41)]) (fun t => t.pc == 0x202) = true := by decide +kernel

theorem test_sneReg : runs 0x9120 (withRegs [(1, 0x40), (2, 0x41)]) (fun t => t.pc == 0x204) = true ∧
    runs 0x9110 (withRegs [(1, 0x40)]) (fun t => t.pc == 0x202) = true := by decide +kernel

theorem test_skp : runs 0xE09E (withKey 5 (withRegs [(0, 5)])) (fun t => t.pc == 0x204) = true ∧
    runs 0xE09E (withRegs [(0, 0x10)]) (fun t => t.status == .fatal (.outOfRange 0x10 .keyTest) && t.pc == 0x200) = true := by decide +kernel

theorem test_sknp : runs 0xE0A1 (withRegs [(0, 5)]) (fun t => t.pc == 0x204) = true ∧
    runs 0xE0A1 (withKey 5 (withRegs [(0, 5)])) (fun t => t.pc == 0x202) = true := by decide +kernel

/-! ### Display -/

theorem test_cls : runs 0x00E0 (lit 3 4 (withRegs [(15, 7)])) (fun t => litIn [3] t == [] && t.reg 15 == 7 && t.pc == 0x202) = true := by
  decide +kernel

/-- V-D4: a sprite that crosses the right edge goes on at column 0. -/
theorem test_drw_wraps_right :
    runs 0xD011 (withI 0x300 ((withRegs [(0, 0x3E)]).putByte 0x300 0xF0))
      (fun t => litIn [0] t == [(0, 0), (0, 1), (0, 62), (0, 63)] && t.reg 15 == 0) = true := by decide +kernel

/-- V-D5 and V-D6: the bottom edge under the two policies. -/
theorem test_drw_bottom_edge :
    runs 0xD012 (withI 0x300 ((withRegs [(1, 31)]).putBytes 0x300 [0x80, 0x80])) (fun t => litIn [0, 31] t == [(0, 0), (31, 0)]) = true ∧
    runs 0xD012 (withI 0x300 ({ withRegs [(1, 31)] with cfg := { Config.default with verticalEdge := .clip } }.putBytes 0x300 [0x80, 0x80]))
      (fun t => litIn [0, 31] t == [(31, 0)] && t.reg 15 == 0) = true := by decide +kernel

/-- V-D7 and V-D8: turning a lit pixel dark is a collision, lighting another one is not. -/
theorem test_drw_collision :
    runs 0xD011 (withI 0x300 ((lit 0 0 State.reset).putByte 0x300 0x80)) (fun t => litIn [0] t == [] && t.reg 15 == 1 && !t.collision) = true ∧
    runs 0xD011 (withI 0x300 ((lit 0 1 State.reset).putByte 0x300 0x80)) (fun t => litIn [0] t == [(0, 0), (0, 1)] && t.reg 15 == 0) = true := by
  decide +kernel

/-- R194 and R198 by hand: the sprite row 80 on a lit pixel darkens it (VF = 1), and drawn again lights it (VF = 0), although the
row has a 1 bit. R203's derived sentence would have VF = 1 there (log entry 16). -/
theorem test_drw_twice_on_lit_pixel :
    after (exec (.drw 0 1 1) (withI 0x300 ((lit 0 0 State.reset).putByte 0x300 0x80))) (fun t => t.reg 15 == 1 &&
      after (exec (.drw 0 1 1) t) fun u => litIn [0] u == [(0, 0)] && u.reg 15 == 0) = true := by decide +kernel

/-- V-D9: a sprite byte out of range leaves the grid alone. -/
theorem test_drw_fault : runs 0xD012 (withI 0xFFF (lit 0 0 State.reset))
    (fun t => t.status == .fatal (.outOfRange 0x1000 .read) && litIn [0] t == [(0, 0)] && t.pc == 0x200) = true := by decide +kernel

/-! ### Index register and memory -/

theorem test_ldI : runs 0xA300 State.reset (fun t => t.i == 0x300 && t.pc == 0x202) = true := by decide +kernel

theorem test_addIVx : runs 0xF21E (withI 0xFFFF (withRegs [(2, 0x01), (15, 9)])) (fun t => t.i == 0 && t.reg 15 == 9) = true := by decide +kernel

theorem test_ldFVx : runs 0xF029 (withRegs [(0, 0x0B)]) (fun t => t.i == 0x037) = true ∧
    runs 0xF029 (withRegs [(0, 0x1A)]) (fun t => t.i == 0x032) = true := by decide +kernel

theorem test_ldBVx : runs 0xF033 (withI 0x300 (withRegs [(0, 0xFE)])) (fun t => t.bytesAt 0x300 3 == [2, 5, 4] && t.i == 0x300) = true ∧
    runs 0xF033 (withI 0xFFE (withRegs [(0, 0x7B)]))
      (fun t => t.status == .fatal (.outOfRange 0x1000 .write) && t.bytesAt 0xFFE 2 == [0, 0]) = true := by decide +kernel

theorem test_storeRegs :
    runs 0xF255 (withI 0x300 (withRegs [(0, 1), (1, 2), (2, 3), (3, 9)])) (fun t => t.bytesAt 0x300 4 == [1, 2, 3, 0] && t.i == 0x303) = true ∧
    runs 0xF255 (inMode .superChip (withI 0x300 (withRegs [(0, 1), (1, 2), (2, 3)]))) (fun t => t.i == 0x300) = true := by decide +kernel

theorem test_loadRegs :
    runs 0xF265 (withI 0x300 ((withRegs [(3, 9)]).putBytes 0x300 [2, 5, 4]))
      (fun t => [t.reg 0, t.reg 1, t.reg 2, t.reg 3] == [2, 5, 4, 9] && t.i == 0x303) = true ∧
    runs 0xF065 State.reset (fun t => t.reg 0 == 0xF0 && t.i == 0x001) = true := by decide +kernel

/-! ### Timers, tone and keys -/

theorem test_ldVxDT : runs 0xF107 { State.reset with dt := 0x3C } (fun t => t.reg 1 == 0x3C) = true := by decide +kernel

theorem test_ldDTVx : runs 0xF015 (withRegs [(0, 3)]) (fun t => t.dt == 3) = true := by decide +kernel

/-- V-T3 and V-T4: one `start()`, and none for a second positive value. -/
theorem test_ldSTVx :
    runs 0xF018 (withRegs [(0, 2)]) (fun t => t.st == 2 && t.toneOn && t.outputs == [.toneStart, .displayInit]) = true ∧
    runs 0xF018 { withRegs [(0, 5)] with st := 2, toneOn := true } (fun t => t.st == 5 && t.toneOn && t.outputs == [.displayInit]) = true := by
  decide +kernel

/-- V-T9: with no key the CPU holds. -/
theorem test_ldVxK_holds : exec (.ldVxK 3) { State.reset with pc := 0x300 } = .next { State.reset with pc := 0x300 } := rfl

/-- V-T11: with one key active the draw has one outcome. -/
theorem test_ldVxK_one_key : ∃ t, exec (.ldVxK 3) (withKey 7 State.reset) = .next t ∧ t.reg 3 = 7 ∧ t.pc = 0x202 := by
  refine ⟨_, (show exec (.ldVxK 3) (withKey 7 State.reset) =
    .next ((withKey 7 State.reset).setKeyPressed 3 ([7].getD (Config.keyChoice 0 % 1) 7)) from rfl), ?_, rfl⟩
  rw [Nat.mod_one]; rfl

/-- V-T7, V-T8 and W1: a tick of both timers. -/
theorem test_timer_step :
    after (step { State.reset with st := 1, toneOn := true, agenda := [.timer] })
      (fun t => t.dt == 0 && t.st == 0 && !t.toneOn && t.outputs == [.toneStop, .displayInit]) = true ∧
    after (step { State.reset with dt := 2, st := 3, toneOn := true, agenda := [.timer] })
      (fun t => t.dt == 1 && t.st == 2 && t.toneOn && t.agenda == []) = true := by decide +kernel

/-- W8: after the halt signal no agent has a step. -/
theorem test_halt : step { State.reset with agenda := [.hostHalt] } =
    .next { State.reset with status := .halted, outputs := [.displayHalt, .displayInit] } ∧
    step { State.reset with status := .halted } = .fault .sessionHalted := ⟨rfl, rfl⟩

/-! ### Witnesses: for each statement with hypotheses, a state and operands that meet all of them together -/

/-- The smallest layout that R8 allows: the font at 0, the program right behind it, two bytes of program space. -/
def tiny : Config := { Config.default with memorySize := 82, programStartAddress := 80, stackSize := 1 }

theorem test_legal_default : LegalByR8 Config.default := by unfold LegalByR8; decide

theorem test_legal_tiny : LegalByR8 tiny := by unfold LegalByR8; decide

/-- The reset state with a word at `pc`. -/
def ready (w : Nat) : State := State.reset.withFetchWord 16 w

theorem test_opcode_ready : OpcodeAtPc (ready 0xD001) 0xD001 := by unfold OpcodeAtPc; decide +kernel

theorem test_turn_reset (a : AgentStep) : TurnOf a { State.reset with agenda := [a] } := ⟨test_legal_default, rfl, rfl⟩

theorem test_witness_inv : State.reset.Inv :=
  ⟨Nat.zero_le _, rfl, rfl, List.length_replicate, fun _ h => (List.eq_of_mem_replicate h) ▸ List.length_replicate, rfl⟩

theorem test_witness_SessionStartState :
    LegalByR8 tiny ∧ tiny.programStartAddress.toNat + [0xAB, 0xCD].length ≤ tiny.memorySize := ⟨test_legal_tiny, by decide⟩

theorem test_witness_RomLoadIsWholeOrNothing :
    LegalByR8 tiny ∧ tiny.programStartAddress.toNat + [0xAB, 0xCD].length ≤ tiny.memorySize ∧
    tiny.memorySize < tiny.programStartAddress.toNat + [0xAB, 0xCD, 0xEF].length := ⟨test_legal_tiny, by decide, by decide⟩

theorem test_witness_IllegalConfigurationRefused : ¬ LegalByR8 { State.reset.cfg with memorySize := 65537 } := by
  unfold LegalByR8; decide

/-- No entry, an entry at the head, and a first entry behind another feature's. -/
theorem test_witness_FeaturesByMode :
    (∀ b, (3, b) ∉ Config.default.modeIndependentFlags) ∧
    { Config.default with modeIndependentFlags := [(3, true)] }.modeIndependentFlags = [] ++ (3, true) :: [] ∧
    { Config.default with modeIndependentFlags := [(2, false), (3, true), (3, false)] }.modeIndependentFlags =
      [(2, false)] ++ (3, true) :: [(3, false)] ∧ ∀ c, (3, c) ∉ [(2, false)] := ⟨by decide, rfl, rfl, by decide⟩

theorem test_witness_DecodeOfEncode : (Instr.drw 15 15 15).wellFormed .superChip = true ∧ (Instr.sys 0xFFF).wellFormed .chip8 = true := by
  decide

theorem test_witness_EncodeOfDecode : decode 0xFF65 .superChip = .ok (.loadRegs 15) := rfl

theorem test_witness_ModeDecidesOnlyDxy0 :
    ¬((0xD001 : Word).toNat / 4096 = 0xD ∧ (0xD001 : Word).toNat % 16 = 0) ∧
    (0xDFF0 : Word).toNat = 0xD000 + 256 * (15 : Idx).val + 16 * (15 : Idx).val := by decide

theorem test_witness_RowSelectedByMaskAndMatch :
    (∀ nnn, Instr.shr 1 2 ≠ .sys nnn) ∧
    ¬((0x8126 : Word).toNat / 4096 = 0xD ∧ (0x8126 : Word).toNat % 16 = 0 ∧ SystemMode.superChip = .superChip) :=
  ⟨fun _ h => (by cases h), by decide⟩

theorem test_witness_AssemblerPlacesOperands : 0xFF < 0x100 ∧ 0xFFF < 0x1000 ∧ 0xF < 0x10 ∧ "SE" ∈ ["SE", "SNE", "LD", "ADD", "RND"] := by
  decide

/-- The last word of memory is a place to fetch from. -/
theorem test_witness_StepRunsDecodedInstruction :
    TurnOf .cpu ({ State.reset with pc := 0xFFE }.withFetchWord 16 0x6012) ∧
    OpcodeAtPc ({ State.reset with pc := 0xFFE }.withFetchWord 16 0x6012) 0x6012 ∧ decode 0x6012 .chip8 = .ok (.ldByte 0 0x12) :=
  ⟨⟨test_legal_default, rfl, rfl⟩, by unfold OpcodeAtPc; decide +kernel, rfl⟩

theorem test_witness_FetchBeyondMemoryFaults :
    TurnOf .cpu { State.reset with pc := 0xFFF } ∧ State.reset.cfg.memorySize ≤ (0xFFF : Word).toNat + 1 ∧
    State.reset.cfg.memorySize ≤ (0x1000 : Word).toNat := ⟨⟨test_legal_default, rfl, rfl⟩, by decide, by decide⟩

theorem test_witness_UnknownWordFollowsPolicy :
    TurnOf .cpu (ready 0x5121) ∧ OpcodeAtPc (ready 0x5121) 0x5121 ∧
    decode 0x5121 (ready 0x5121).cfg.systemMode = .error (.unknown .group5 0x5121) ∧ (ready 0x5121).cfg.unknownOpcodePolicy = .halt ∧
    TurnOf .cpu (skipping (ready 0x5121)) ∧ OpcodeAtPc (skipping (ready 0x5121)) 0x5121 ∧
    (skipping (ready 0x5121)).cfg.unknownOpcodePolicy = .skip :=
  ⟨⟨test_legal_default, rfl, rfl⟩, by unfold OpcodeAtPc; decide +kernel, rfl, rfl,
    ⟨(by unfold LegalByR8; decide), rfl, rfl⟩, by unfold OpcodeAtPc; decide +kernel, rfl⟩

theorem test_witness_EndedSessionHasNoStep :
    LegalByR8 State.reset.cfg ∧ { State.reset with status := .halted }.status = .halted ∧
    { State.reset with status := .fatal (.stackUnderflow 0x200) }.status = .fatal (.stackUnderflow 0x200) :=
  ⟨test_legal_default, rfl, rfl⟩

theorem test_witness_RunningSessionAlwaysSteps : LegalByR8 State.reset.cfg ∧ State.reset.status = .running := ⟨test_legal_default, rfl⟩

theorem test_witness_SysIsUnknownInstruction :
    State.reset.cfg.unknownOpcodePolicy = .halt ∧ (skipping State.reset).cfg.unknownOpcodePolicy = .skip := ⟨rfl, rfl⟩

theorem test_witness_CallPushesItsAddress :
    State.reset.stack.length ≠ State.reset.cfg.stackSize ∧
    { State.reset with stack := List.replicate 16 0 }.stack.length = State.reset.cfg.stackSize := by decide

theorem test_witness_RetResumesAfterCall :
    { State.reset with stack := [0xFFFE] }.stack = 0xFFFE :: [] ∧ State.reset.stack = [] := ⟨rfl, rfl⟩

theorem test_witness_CallReturnPair :
    { State.reset with stack := List.replicate 15 0 }.stack.length < State.reset.cfg.stackSize ∧
    exec (.call 0x321) { State.reset with stack := List.replicate 15 0 } =
      .next { State.reset with stack := 0x200 :: List.replicate 15 0, pc := 0x321 } := ⟨by decide, rfl⟩

theorem test_witness_PushThenPop :
    { State.reset with stack := List.replicate 16 0 }.stack.length = State.reset.cfg.stackSize ∧
    { State.reset with stack := List.replicate 15 0 }.stack.length ≠ State.reset.cfg.stackSize ∧
    { State.reset with stack := [0x204] }.stack = 0x204 :: [] ∧ State.reset.stack = [] := by decide

theorem test_witness_ShiftsByMode :
    (0x81 : Nat) = if (withRegs [(2, 0x81)]).cfg.systemMode = .chip8 then ((withRegs [(2, 0x81)]).reg 2).toNat
      else ((withRegs [(2, 0x81)]).reg 1).toNat := by decide +kernel

/-- The last key index, and the first value that names none. -/
theorem test_witness_KeySkips :
    ((withRegs [(0, 15)]).reg 0).toNat = (15 : Idx).val ∧ 0xF < ((withRegs [(0, 16)]).reg 0).toNat := by decide +kernel

theorem test_fbSized_reset : FbSized State.reset := ⟨test_witness_inv.fbRows, test_witness_inv.fbColumns⟩

/-- The sprite may end at the last byte of memory. -/
theorem test_witness_DrwDrawsTheSprite :
    FbSized (withI 0xFF1 State.reset) ∧ ¬((15 : Idx) = 0 ∧ (withI 0xFF1 State.reset).cfg.systemMode = .superChip) ∧
    (withI 0xFF1 State.reset).i.toNat + (15 : Idx).val ≤ (withI 0xFF1 State.reset).cfg.memorySize :=
  ⟨test_fbSized_reset, by decide, by decide⟩

theorem test_witness_DrwOfZeroRows :
    State.reset.collision = false ∧ State.reset.cfg.systemMode ≠ .superChip ∧
    (inMode .superChip (skipping State.reset)).collision = false ∧ (inMode .superChip (skipping State.reset)).cfg.systemMode = .superChip ∧
    (inMode .superChip (skipping State.reset)).cfg.unknownOpcodePolicy = .skip ∧
    (inMode .superChip State.reset).cfg.systemMode = .superChip ∧ (inMode .superChip State.reset).cfg.unknownOpcodePolicy = .halt := by decide

theorem test_witness_DrwFaultIsPrecise :
    1 < (2 : Idx).val ∧ State.reset.cfg.memorySize ≤ (withI 0xFFF State.reset).i.toNat + 1 ∧
    ∀ r', r' < 1 → (withI 0xFFF State.reset).i.toNat + r' < State.reset.cfg.memorySize := by decide

/-- V-D3: both draws of the sprite, on the default grid. -/
theorem test_witness_DrawTwiceRestoresPixels :
    FbSized (withI 0x300 State.reset) ∧ ¬((1 : Idx) = 0 ∧ (withI 0x300 State.reset).cfg.systemMode = .superChip) ∧
    (withI 0x300 State.reset).i.toNat + (1 : Idx).val ≤ (withI 0x300 State.reset).cfg.memorySize ∧
    (∃ t, exec (.drw 0 1 1) (withI 0x300 State.reset) = .next t ∧ t.reg 0 = 0 ∧ t.reg 1 = 0) ∧
    8 ≤ State.reset.cfg.displayWidth ∧ (1 : Idx).val ≤ State.reset.cfg.displayHeight ∧
    ∀ py px, getPixel (withI 0x300 State.reset).fb py px = false := by
  refine ⟨test_fbSized_reset, by decide, by decide, ⟨_, rfl, by decide +kernel, by decide +kernel⟩, by decide, by decide, fun py px => ?_⟩
  show ((List.replicate 32 (List.replicate 64 false)).getD py []).getD px false = false
  have row : ∀ (n k : Nat), (List.replicate n false).getD k false = false := by
    intro n k; rw [List.getD_eq_getElem?_getD, List.getElem?_replicate]; split <;> rfl
  rw [List.getD_eq_getElem?_getD (l := List.replicate 32 _), List.getElem?_replicate]
  split
  · exact row 64 px
  · rfl

/-- The three digits may end at the last byte of memory. -/
theorem test_witness_BcdStoresDigits :
    MemCanonical (withI 0xFFD State.reset) ∧ (withI 0xFFD State.reset).i.toNat + 2 < State.reset.cfg.memorySize := ⟨rfl, by decide⟩

/-- The block may end at the last byte of memory. -/
theorem test_witness_block_transfers :
    MemCanonical (withI 0xFF0 State.reset) ∧ (withI 0xFF0 State.reset).i.toNat + (15 : Idx).val < State.reset.cfg.memorySize := ⟨rfl, by decide⟩

theorem test_witness_BlockFaultsArePrecise :
    State.reset.cfg.memorySize ≤ (withI 0xFFE State.reset).i.toNat + 2 ∧
    (∀ r', r' < 2 → (withI 0xFFE State.reset).i.toNat + r' < State.reset.cfg.memorySize) ∧ 2 < 3 ∧ 2 ≤ (2 : Idx).val := by decide

theorem test_witness_StoreThenLoadRestoresRegisters :
    MemCanonical (withI 0x300 State.reset) ∧ (withI 0x300 State.reset).i.toNat + (0 : Idx).val < State.reset.cfg.memorySize ∧
    ∃ t u, exec (.storeRegs 0) (withI 0x300 State.reset) = .next t ∧ u = { t with i := 0x300 } ∧ u.mem = t.mem ∧ u.cfg = t.cfg ∧
      u.i = (withI 0x300 State.reset).i := ⟨rfl, by decide, _, _, rfl, rfl, rfl, rfl, rfl⟩

theorem test_witness_MemoryReadAfterWrite :
    MemCanonical State.reset ∧ 0xFFF < State.reset.cfg.memorySize ∧ State.reset.cfg.memorySize ≤ 0x1000 ∧
    0xFFE + [(1 : Byte), 2].length ≤ State.reset.cfg.memorySize ∧
    (1 < [(1 : Byte), 2].length ∧ State.reset.cfg.memorySize ≤ 0xFFF + 1 ∧ ∀ r', r' < 1 → 0xFFF + r' < State.reset.cfg.memorySize) :=
  ⟨rfl, by decide, by decide, by decide, by decide⟩

/-- V-T3 to V-T6: each of the four combinations of the timer before and after. -/
theorem test_witness_SoundTimerWrite :
    ((withRegs [(0, 1)]).st.toNat = 0 ∧ 0 < ((withRegs [(0, 1)]).reg 0).toNat) ∧
    (0 < { State.reset with st := 1 }.st.toNat ∧ (State.reset.reg 0).toNat = 0) ∧
    (State.reset.st.toNat = 0 ↔ (State.reset.reg 0).toNat = 0) ∧
    ((1 : Byte).toNat = 0 ↔ ((withRegs [(0, 255)]).reg 0).toNat = 0) := by decide +kernel

theorem test_witness_KeyWaitHoldsOrStoresKey :
    (∀ k : Idx, State.reset.key[k] = false) ∧ ∃ k : Idx, (withKey 15 State.reset).key[k] = true :=
  ⟨by decide +kernel, 15, by decide +kernel⟩

theorem test_witness_agent_turns (k : Idx) (b : Bool) :
    TurnOf .timer { State.reset with agenda := [.timer], st := 1 } ∧ TurnOf .display { State.reset with agenda := [.display] } ∧
    TurnOf (.hostKey k b) { State.reset with agenda := [.hostKey k b] } ∧ TurnOf .hostHalt { State.reset with agenda := [.hostHalt] } :=
  ⟨⟨test_legal_default, rfl, rfl⟩, test_turn_reset _, test_turn_reset _, test_turn_reset _⟩

theorem test_witness_TimersCountDownBetweenInstructions :
    LegalByR8 State.reset.cfg ∧ State.reset.status = .running ∧
    ∀ m, m < 3 → (fun _ => AgentStep.timer : Schedule) m ≠ .cpu ∧ (fun _ => AgentStep.timer : Schedule) m ≠ .hostHalt :=
  ⟨test_legal_default, rfl, fun _ _ => ⟨nofun, nofun⟩⟩

/-- The CPU, the timer and the display loop in turn. -/
def roundRobin : Schedule := fun n => if n % 3 = 0 then .cpu else if n % 3 = 1 then .timer else .display

theorem test_roundRobin_fair : WeaklyFair roundRobin := by
  intro a ha n
  simp only [List.mem_cons, List.not_mem_nil, or_false] at ha
  obtain rfl | rfl | rfl := ha
  · exact ⟨3 * n, by omega, by simp [roundRobin]⟩
  · exact ⟨3 * n + 1, by omega, by simp [roundRobin, Nat.add_mod]⟩
  · exact ⟨3 * n + 2, by omega, by simp [roundRobin, Nat.add_mod]⟩

theorem test_witness_TimersRunOutDuringKeyWait :
    (State.Inv { ready 0xF30A with st := 9, toneOn := true }) ∧ LegalByR8 (ready 0xF30A).cfg ∧ (ready 0xF30A).status = .running ∧
    OpcodeAtPc (ready 0xF30A) 0xF30A ∧ decode 0xF30A (ready 0xF30A).cfg.systemMode = .ok (.ldVxK 3) ∧
    (∀ k : Idx, (ready 0xF30A).key[k] = false) ∧ WeaklyFair roundRobin ∧
    ∀ m, roundRobin m ≠ .hostHalt ∧ ∀ k, roundRobin m ≠ .hostKey k true := by
  refine ⟨⟨Nat.zero_le _, rfl, rfl, test_witness_inv.fbRows, test_witness_inv.fbColumns, by decide +kernel⟩, test_legal_default, rfl,
    by unfold OpcodeAtPc; decide +kernel, rfl, by decide +kernel, test_roundRobin_fair, fun m => ?_⟩
  unfold roundRobin
  split
  · exact ⟨by decide, by decide⟩
  · split
    · exact ⟨by decide, by decide⟩
    · exact ⟨by decide, by decide⟩

theorem test_witness_StepKeepsInvariant :
    { State.reset with agenda := [.display] }.Inv ∧ step { State.reset with agenda := [.display] } =
      .next { State.reset with outputs := .displayUpdate State.reset.fb :: State.reset.outputs } :=
  ⟨⟨test_witness_inv.stackBound, rfl, rfl, test_witness_inv.fbRows, test_witness_inv.fbColumns, rfl⟩, rfl⟩

theorem test_witness_SessionStartMeetsInvariant :
    startSession tiny [0xAB, 0xCD] = .next ((State.start tiny).putBytes 80 [0xAB, 0xCD]) := rfl

theorem test_witness_ConfigurationIsReadOnly : step State.reset = .next (State.reset.faulted (.unknownInstruction 0x200 0x0000)) := rfl

/-- A fault of a running session, and its status. -/
theorem test_witness_FaultsArePrecise :
    State.reset.status = .running ∧ exec .ret State.reset = .next (State.reset.faulted (.stackUnderflow 0x200)) ∧
    (State.reset.faulted (.stackUnderflow 0x200)).status = .fatal (.stackUnderflow 0x200) := ⟨rfl, rfl, rfl⟩

theorem test_witness_PcMovesAsTheRulesSay :
    exec (.jp 0x204) State.reset = .next { State.reset with pc := 0x204 } ∧ ¬ Faulted { State.reset with pc := 0x204 } :=
  ⟨rfl, fun h => by obtain ⟨f, h⟩ := h; cases h⟩

theorem test_witness_RegistersChangeOnlyWhereNamed :
    (∃ t, exec (.addReg 1 2) State.reset = .next t) ∧ writesReg (.addReg 1 2) 14 = false := ⟨⟨_, rfl⟩, by decide⟩

/-- An instruction that does change `I`, the stack, a timer, the grid, the collision flag or memory. -/
theorem test_witness_OtherStateChangesOnlyWhereNamed :
    (∃ t, exec (.ldI 0x300) State.reset = .next t ∧ t.i ≠ State.reset.i) ∧
    (∃ t, exec (.call 0x300) State.reset = .next t ∧ t.stack ≠ State.reset.stack) ∧
    (∃ t, exec (.ldDTVx 0) (withRegs [(0, 1)]) = .next t ∧ t.dt ≠ (withRegs [(0, 1)]).dt) ∧
    (∃ t, exec (.ldSTVx 0) (withRegs [(0, 1)]) = .next t ∧ t.st ≠ (withRegs [(0, 1)]).st) ∧
    (∃ t, exec .cls (lit 0 0 State.reset) = .next t ∧ t.fb ≠ (lit 0 0 State.reset).fb) ∧
    (∃ t, exec .cls { State.reset with collision := true } = .next t ∧ t.collision ≠ true) ∧
    ∃ t, exec (.storeRegs 0) State.reset = .next t ∧ ∃ a, t.byteAt a ≠ State.reset.byteAt a :=
  ⟨⟨_, rfl, by decide +kernel⟩, ⟨_, rfl, by decide +kernel⟩, ⟨_, rfl, by decide +kernel⟩, ⟨_, rfl, by decide +kernel⟩,
    ⟨_, rfl, by decide +kernel⟩, ⟨_, rfl, by decide⟩, _, rfl, 0, by decide +kernel⟩

end Sys2Proof.Tests
end

section
/-! SUPPORT. The family of 00_scope.md: the default session, the refusal of an illegal configuration (R8), that a running
session always steps (R12), and that the configuration is read-only (R7, R39). -/

namespace Sys2Proof.Machine

/-! ### Legal configurations (R8) -/

/-- The check of session start and `step` decides the conditions of R8. -/
theorem legalConfig_iff (cfg : Config) : legalConfig cfg = true ↔ LegalByR8 cfg := by
  simp [legalConfig, LegalByR8, and_assoc]

theorem startSession_of_illegal {cfg : Config} (h : ¬ LegalByR8 cfg) (rom : List Byte) :
    startSession cfg rom = .refused .illegalConfiguration :=
  if_neg (mt (legalConfig_iff cfg).1 h)

theorem startSession_of_fits {cfg : Config} {rom : List Byte} (hl : LegalByR8 cfg)
    (hr : cfg.programStartAddress.toNat + rom.length ≤ cfg.memorySize) :
    startSession cfg rom = .next ((State.start cfg).putBytes cfg.programStartAddress.toNat rom) :=
  (if_pos ((legalConfig_iff cfg).2 hl)).trans (if_pos hr)

theorem step_of_illegal {s : State} (h : ¬ LegalByR8 s.cfg) : step s = .refused .illegalConfiguration :=
  if_neg (mt (legalConfig_iff s.cfg).1 h)

theorem step_of_running {s : State} (hl : LegalByR8 s.cfg) (hs : s.status = .running) :
    step s = agentStep s.nextAgent s.popAgenda := by
  simp [step, (legalConfig_iff s.cfg).2 hl, hs]

/-! ### Every meaning answers a next state -/

theorem orRaise_answers {α : Type} (s : State) (c : Except SessionFault α) {k : α → Result}
    (hk : ∀ a, ∃ t, k a = .next t) : ∃ t, orRaise s c k = .next t := by
  cases c with
  | ok a => exact hk a
  | error f => exact ⟨s.faulted f, rfl⟩

theorem unknownInstruction_answers (op : Word) (s : State) : ∃ t, unknownInstruction op s = .next t :=
  ⟨_, unknownInstruction_eq op s⟩

/-- Every instruction answers a next state from every state; a fault is one too (log entry 3). -/
theorem exec_answers (i : Instr) (s : State) : ∃ t, exec i s = .next t := by
  cases i with
  | sys nnn => exact unknownInstruction_answers _ s
  | drw x y n =>
    rw [exec, execDrw]
    split
    · exact unknownInstruction_answers _ s
    · exact orRaise_answers s _ fun _ => ⟨_, rfl⟩
  | ldVxK x =>
    rw [exec, execLdVxK]
    split
    · exact ⟨s, rfl⟩
    · exact ⟨_, rfl⟩
  | ret | call | skp | sknp | ldBVx | storeRegs | loadRegs => exact orRaise_answers s _ fun _ => ⟨_, rfl⟩
  | _ => exact ⟨_, rfl⟩

theorem runWord_answers (op : Word) (s : State) : ∃ t, runWord op s = .next t := by
  unfold runWord
  split
  · exact exec_answers _ s
  · exact unknownInstruction_answers op s

theorem agentStep_answers (a : AgentStep) (s : State) : ∃ t, agentStep a s = .next t := by
  cases a with
  | cpu => exact orRaise_answers s (fetch s) fun op => runWord_answers op s
  | timer | display | hostKey | hostHalt => exact ⟨_, rfl⟩

/-! ### No meaning changes the configuration -/

theorem Effect.cfg_eq {i : Instr} {s t : State} (h : Effect i s t) : t.cfg = s.cfg := by
  cases i with
  | ret => obtain ⟨_, _, _, rfl⟩ := h; rfl
  | call => obtain ⟨_, rfl⟩ := h; rfl
  | addReg | subReg | shr | subn | shl => obtain ⟨_, _, rfl⟩ := h; rfl
  | drw => obtain rfl | ⟨_, rfl⟩ := h <;> rfl
  | skp | sknp | addIVx | ldFVx => obtain ⟨_, rfl⟩ := h; rfl
  | ldVxK => obtain rfl | ⟨_, rfl⟩ := h <;> rfl
  | ldBVx => obtain ⟨_, _, rfl⟩ := h; rfl
  | storeRegs | loadRegs => obtain ⟨_, _, _, rfl⟩ := h; rfl
  | _ => cases h; rfl

theorem exec_cfg {i : Instr} {s t : State} (h : exec i s = .next t) : t.cfg = s.cfg := by
  obtain ⟨f, rfl⟩ | he := exec_cases h
  · exact State.faulted_cfg f s
  · exact he.cfg_eq

theorem cpuStep_cfg {s t : State} (h : cpuStep s = .next t) : t.cfg = s.cfg := by
  obtain ⟨f, rfl⟩ | rfl | ⟨i, hi⟩ := cpuStep_cases h
  · exact State.faulted_cfg f s
  · exact State.advance_cfg s
  · exact exec_cfg hi

theorem agentStep_cfg {a : AgentStep} {s t : State} (h : agentStep a s = .next t) : t.cfg = s.cfg := by
  cases a with
  | cpu => exact cpuStep_cfg h
  | timer | display | hostKey | hostHalt => cases h; rfl

/-! ### The obligations of the family -/

/-- Settles O17: past the checks of `step`, every agent answers a next state. -/
theorem runningSessionAlwaysSteps : Obligations.RunningSessionAlwaysSteps := by
  intro s hl hs
  rw [step_of_running hl hs]
  exact agentStep_answers _ _

/-- Settles O55: the agent's step keeps the configuration, and so does taking its turn off the agenda. -/
theorem configurationIsReadOnly : Obligations.ConfigurationIsReadOnly := by
  intro s t h
  obtain ⟨-, -, ha⟩ := step_cases h
  exact (agentStep_cfg ha).trans (State.popAgenda_cfg s)

/-- Settles O3: the default configuration is legal and an empty ROM fits, so session start writes nothing over its reset
state. -/
theorem resetIsDefaultSession : Obligations.ResetIsDefaultSession := by
  have hl : LegalByR8 Config.default := by unfold LegalByR8; decide
  have hstart : startSession Config.default [] = .next State.reset := startSession_of_fits hl (by decide)
  exact ⟨hstart, rfl, rfl, rfl, rfl, rfl, rfl, rfl, rfl, rfl, fun _ => rfl, rfl, rfl, rfl⟩

/-- Settles O4: both functions check R8's conditions before anything else. -/
theorem illegalConfigurationRefused : Obligations.IllegalConfigurationRefused :=
  fun _ rom h => ⟨startSession_of_illegal h rom, step_of_illegal h⟩

end Sys2Proof.Machine
end

section
/-! SUPPORT. The family of 10_state.md: the feature map (R42 to R44), the end of a session (R38), the return stack (R29 to R31,
R122, R124), the invariant (R28, R34 to R36, R61), what each instruction may change (R26, R49), and that the sound timer is
unobservable (R33, R280). -/

namespace Sys2Proof.Machine

/-! ### The feature map (R44) -/

/-- Entries for other features do not count. -/
theorem flagOf_append_of_notMem {n : Nat} {pre : List (Nat × Bool)} (h : ∀ b, (n, b) ∉ pre) (m : List (Nat × Bool)) :
    flagOf (pre ++ m) n = flagOf m n := by
  induction pre with
  | nil => rfl
  | cons e pre ih =>
    have he : e.1 ≠ n := fun heq => h e.2 (by simp [← heq])
    simp only [List.cons_append, flagOf, if_neg he]
    exact ih fun b hb => h b (List.mem_cons_of_mem e hb)

theorem flagOf_of_notMem {n : Nat} {m : List (Nat × Bool)} (h : ∀ b, (n, b) ∉ m) : flagOf m n = false := by
  simpa [flagOf] using flagOf_append_of_notMem h []

theorem flagOf_of_firstEntry {n : Nat} {pre : List (Nat × Bool)} (h : ∀ b, (n, b) ∉ pre) (b : Bool)
    (rest : List (Nat × Bool)) : flagOf (pre ++ (n, b) :: rest) n = b := by
  rw [flagOf_append_of_notMem h]; simp [flagOf]

/-! ### CALL and RET on each kind of stack (R122, R124) -/

theorem toNat_zext16 (nnn : Addr12) : (zext16 nnn).toNat = nnn.toNat :=
  BitVec.toNat_setWidth_of_le (by decide)

theorem exec_call_of_room {s : State} (h : s.stack.length ≠ s.cfg.stackSize) (nnn : Addr12) :
    exec (.call nnn) s = .next { s with stack := s.pc :: s.stack, pc := zext16 nnn } := by
  rw [exec, execCall, push_ok h, orRaise_ok]; rfl

theorem exec_call_of_full {s : State} (h : s.stack.length = s.cfg.stackSize) (nnn : Addr12) :
    exec (.call nnn) s = .next (s.faulted (.stackOverflow s.pc)) := by
  rw [exec, execCall, push_full h, orRaise_error]

theorem exec_ret_of_cons {s : State} {a : Word} {rest : List Word} (h : s.stack = a :: rest) :
    exec .ret s = .next { s with stack := rest, pc := a + 2 } := by
  rw [exec, execRet, pop_cons h, orRaise_ok]; rfl

theorem exec_ret_of_nil {s : State} (h : s.stack = []) : exec .ret s = .next (s.faulted (.stackUnderflow s.pc)) := by
  rw [exec, execRet, pop_nil h, orRaise_error]

/-! ### The frame of an instruction (R49) -/

/-- The columns of R49 beside `V`, `VF` and `pc`: which instructions may change each of them. -/
structure Frame (i : Instr) (s t : State) : Prop where
  index : t.i ≠ s.i → (∃ nnn, i = .ldI nnn) ∨ ∃ x, i = .addIVx x ∨ i = .ldFVx x ∨ i = .storeRegs x ∨ i = .loadRegs x
  stack : t.stack ≠ s.stack → i = .ret ∨ ∃ nnn, i = .call nnn
  delay : t.dt ≠ s.dt → ∃ x, i = .ldDTVx x
  sound : t.st ≠ s.st ∨ t.toneOn ≠ s.toneOn → ∃ x, i = .ldSTVx x
  display : t.fb ≠ s.fb ∨ t.collision ≠ s.collision → i = .cls ∨ ∃ x y n, i = .drw x y n
  key : t.key = s.key
  memory : t.mem ≠ s.mem → ∃ x, i = .ldBVx x ∨ i = .storeRegs x

/-- The general registers, `pc`, the status and the model's own fields are none of those columns. -/
theorem Frame.of_otherColumns {i : Instr} {s : State} {v : Vector Byte 16} {pc : Word} {status : Status} {draws : Nat}
    {outputs : List Output} :
    Frame i s { s with v := v, pc := pc, status := status, draws := draws, outputs := outputs } := by
  constructor <;> simp

/-- The instructions that change one of those columns are the named ones. -/
theorem Effect.frame {i : Instr} {s t : State} (h : Effect i s t) : Frame i s t := by
  cases i with
  | ret => obtain ⟨_, _, _, rfl⟩ := h; constructor <;> simp
  | call => obtain ⟨_, rfl⟩ := h; constructor <;> simp
  | cls | ldI | ldDTVx | ldSTVx => cases h; constructor <;> simp
  | drw => obtain rfl | ⟨_, rfl⟩ := h <;> constructor <;> simp
  | addIVx | ldFVx => obtain ⟨_, rfl⟩ := h; constructor <;> simp
  | ldBVx => obtain ⟨_, _, rfl⟩ := h; constructor <;> simp
  | storeRegs | loadRegs => obtain ⟨_, _, _, rfl⟩ := h; constructor <;> simp
  | addReg | subReg | shr | subn | shl => obtain ⟨_, _, rfl⟩ := h; exact .of_otherColumns
  | skp | sknp => obtain ⟨_, rfl⟩ := h; exact .of_otherColumns
  | ldVxK => obtain rfl | ⟨_, rfl⟩ := h <;> exact .of_otherColumns
  | _ => cases h; exact .of_otherColumns

theorem exec_frame {i : Instr} {s t : State} (h : exec i s = .next t) : Frame i s t := by
  obtain ⟨f, rfl⟩ | he := exec_cases h
  · exact .of_otherColumns
  · exact he.frame

/-- A byte of memory differs only where memory does: the configuration, which says what an unlisted address holds, stays. -/
theorem State.byteAt_congr {s t : State} (hm : t.mem = s.mem) (hc : t.cfg = s.cfg) (a : Nat) : t.byteAt a = s.byteAt a := by
  simp only [State.byteAt, hm, hc]

/-! ### The registers of an instruction (R49) -/

theorem State.reg_setReg_of_ne {x j : Idx} (h : j ≠ x) (b : Byte) (s : State) : (s.setReg x b).reg j = s.reg j :=
  (State.reg_setReg x b s j).trans (if_neg h)

/-- A register that the row of an instruction does not name keeps its value. -/
theorem Effect.reg_eq {i : Instr} {s t : State} {j : Idx} (h : Effect i s t) (hw : writesReg i j = false) :
    t.reg j = s.reg j := by
  cases i with
  | ldByte | addByte | ldReg | orReg | andReg | xorReg | rnd | ldVxDT =>
    cases h; exact State.reg_setReg_of_ne (of_decide_eq_false hw) _ s
  | addReg | subReg | shr | subn | shl =>
    obtain ⟨r, f, rfl⟩ := h
    obtain ⟨hx, hF⟩ := Bool.or_eq_false_iff.1 hw
    exact (State.reg_setReg_of_ne (of_decide_eq_false hF) _ _).trans (State.reg_setReg_of_ne (of_decide_eq_false hx) r s)
  | drw =>
    obtain rfl | ⟨rows, rfl⟩ := h
    · rfl
    · exact (State.reg_consumeCollision _ j).trans (if_neg (of_decide_eq_false hw))
  | ldVxK =>
    obtain rfl | ⟨k, rfl⟩ := h
    · rfl
    · exact State.reg_setReg_of_ne (of_decide_eq_false hw) _ s
  | loadRegs x =>
    obtain ⟨bs, w, hlen, rfl⟩ := h
    have hx : x.val < j.val := Fin.lt_def.1 (not_le.1 (of_decide_eq_false hw))
    exact (State.reg_setRegs bs s j).trans (if_neg (by omega))
  | ret => obtain ⟨_, _, _, rfl⟩ := h; rfl
  | call => obtain ⟨_, rfl⟩ := h; rfl
  | skp | sknp | addIVx | ldFVx => obtain ⟨_, rfl⟩ := h; rfl
  | ldBVx => obtain ⟨_, _, rfl⟩ := h; rfl
  | storeRegs => obtain ⟨_, _, _, rfl⟩ := h; rfl
  | _ => cases h; rfl

/-! ### The program counter of an instruction (R26) -/

theorem State.skipIf_pc_cases (c : Bool) (s : State) : (s.skipIf c).pc = s.pc + 2 ∨ (s.skipIf c).pc = s.pc + 4 := by
  cases c
  · exact .inl rfl
  · exact .inr rfl

/-- Where `pc` goes: R26 row by row. -/
theorem Effect.pc_cases {i : Instr} {s t : State} (h : Effect i s t) :
    t.pc = s.pc + 2 ∨
    (t.pc = s.pc + 4 ∧ ((∃ x kk, i = .seByte x kk ∨ i = .sneByte x kk) ∨ (∃ x y, i = .seReg x y ∨ i = .sneReg x y) ∨
      ∃ x, i = .skp x ∨ i = .sknp x)) ∨
    (i = .ret ∨ ∃ nnn, i = .jp nnn ∨ i = .call nnn ∨ i = .jpV0 nnn) ∨
    (t = s ∧ ∃ x, i = .ldVxK x) := by
  cases i with
  | seByte | sneByte | seReg | sneReg => cases h; exact (State.skipIf_pc_cases _ s).imp_right fun hpc => .inl ⟨hpc, by simp⟩
  | skp | sknp => obtain ⟨c, rfl⟩ := h; exact (State.skipIf_pc_cases c s).imp_right fun hpc => .inl ⟨hpc, by simp⟩
  | ret | jp | call | jpV0 => exact .inr (.inr (.inl (by simp)))
  | ldVxK x =>
    obtain rfl | ⟨k, rfl⟩ := h
    · exact .inr (.inr (.inr ⟨rfl, x, rfl⟩))
    · exact .inl rfl
  | addReg | subReg | shr | subn | shl => obtain ⟨_, _, rfl⟩ := h; exact .inl rfl
  | drw => obtain rfl | ⟨_, rfl⟩ := h <;> exact .inl rfl
  | addIVx | ldFVx => obtain ⟨_, rfl⟩ := h; exact .inl rfl
  | ldBVx => obtain ⟨_, _, rfl⟩ := h; exact .inl rfl
  | storeRegs | loadRegs => obtain ⟨_, _, _, rfl⟩ := h; exact .inl rfl
  | _ => cases h; exact .inl rfl

/-! ### The invariant

One lemma for each kind of write that a clause speaks of; what else an instruction or an agent writes is `of_otherFields`. -/

namespace State.Inv

/-- The invariant says nothing of the fields listed here. -/
theorem of_otherFields {s : State} (h : s.Inv) {v : Vector Byte 16} {i pc : Word} {dt : Byte} {key : Vector Bool 16}
    {status : Status} {agenda : List AgentStep} {draws : Nat} {outputs : List Output} :
    State.Inv { s with
      v := v, i := i, pc := pc, dt := dt, key := key, status := status, agenda := agenda, draws := draws, outputs := outputs } :=
  ⟨h.stackBound, h.toneFollowsSound, h.collisionClear, h.fbRows, h.fbColumns, h.memCanonical⟩

theorem fbShape {s : State} (h : s.Inv) : FbShape s.cfg.displayHeight s.cfg.displayWidth s.fb := ⟨h.fbRows, h.fbColumns⟩

/-- A write of memory inside its range keeps the invariant. -/
theorem putBytes {s : State} (h : s.Inv) {a : Nat} {bs : List Byte} (ha : bs.length = 0 ∨ a + bs.length ≤ s.cfg.memorySize) :
    (s.putBytes a bs).Inv := by
  have hm : (s.putBytes a bs).MemWf := by
    obtain hnil | hle := ha
    · rw [List.eq_nil_of_length_eq_zero hnil]; exact h.memCanonical
    · exact State.memWf_putBytes h.memCanonical hle
  exact ⟨h.stackBound, h.toneFollowsSound, h.collisionClear, h.fbRows, h.fbColumns, hm⟩

/-- A write of the sound timer takes the tone along (R278). -/
theorem setSoundTimer {s : State} (h : s.Inv) (b : Byte) : (s.setSoundTimer b).Inv :=
  ⟨h.stackBound, toneAfter_toneEvent h.toneFollowsSound, h.collisionClear, h.fbRows, h.fbColumns, h.memCanonical⟩

/-- A grid of the configured size and a clear collision flag may replace the present ones. -/
theorem withDisplay {s : State} (h : s.Inv) {fb : Framebuffer} (hfb : FbShape s.cfg.displayHeight s.cfg.displayWidth fb) :
    State.Inv { s with fb := fb, collision := false } :=
  ⟨h.stackBound, h.toneFollowsSound, rfl, hfb.1, hfb.2, h.memCanonical⟩

/-- A stack within the bound may replace the present one. -/
theorem withStack {s : State} (h : s.Inv) {stack : List Word} (hle : stack.length ≤ s.cfg.stackSize) :
    State.Inv { s with stack := stack } :=
  ⟨hle, h.toneFollowsSound, h.collisionClear, h.fbRows, h.fbColumns, h.memCanonical⟩

end State.Inv

/-- What an instruction does where it raises no fault keeps the invariant. -/
theorem Effect.inv {i : Instr} {s t : State} (h : Effect i s t) (hs : s.Inv) : t.Inv := by
  cases i with
  | ret =>
    obtain ⟨a, rest, hst, rfl⟩ := h
    have hle : rest.length ≤ s.cfg.stackSize := by
      have := hs.stackBound
      rw [hst, List.length_cons] at this; omega
    exact (hs.withStack hle).of_otherFields
  | call =>
    obtain ⟨hroom, rfl⟩ := h
    have hle : (s.pc :: s.stack).length ≤ s.cfg.stackSize := Nat.lt_of_le_of_ne hs.stackBound hroom
    exact (hs.withStack hle).of_otherFields
  | cls => cases h; exact (hs.withDisplay (fbShape_dark s.cfg)).of_otherFields
  | drw =>
    obtain rfl | ⟨rows, rfl⟩ := h
    · exact hs.of_otherFields
    · exact (hs.withDisplay (fbShape_drawSprite hs.fbShape s.cfg _ _ rows)).of_otherFields
  | ldSTVx => cases h; exact (hs.setSoundTimer _).of_otherFields
  | ldBVx => obtain ⟨_, ha, rfl⟩ := h; exact (hs.putBytes ha).of_otherFields
  | storeRegs => obtain ⟨_, _, ha, rfl⟩ := h; exact (hs.putBytes ha).of_otherFields
  | loadRegs => obtain ⟨_, _, _, rfl⟩ := h; exact hs.of_otherFields
  | addReg | subReg | shr | subn | shl => obtain ⟨_, _, rfl⟩ := h; exact hs.of_otherFields
  | skp | sknp | addIVx | ldFVx => obtain ⟨_, rfl⟩ := h; exact hs.of_otherFields
  | ldVxK => obtain rfl | ⟨_, rfl⟩ := h <;> exact hs.of_otherFields
  | _ => cases h; exact hs.of_otherFields

theorem exec_inv {i : Instr} {s t : State} (h : exec i s = .next t) (hs : s.Inv) : t.Inv := by
  obtain ⟨f, rfl⟩ | he := exec_cases h
  · exact hs.of_otherFields
  · exact he.inv hs

theorem cpuStep_inv {s t : State} (h : cpuStep s = .next t) (hs : s.Inv) : t.Inv := by
  obtain ⟨f, rfl⟩ | rfl | ⟨i, hi⟩ := cpuStep_cases h
  · exact hs.of_otherFields
  · exact hs.of_otherFields
  · exact exec_inv hi hs

theorem agentStep_inv {a : AgentStep} {s t : State} (h : agentStep a s = .next t) (hs : s.Inv) : t.Inv := by
  cases a with
  | cpu => exact cpuStep_inv h hs
  | timer => cases h; exact (hs.setSoundTimer _).of_otherFields
  | display | hostKey | hostHalt => cases h; exact hs.of_otherFields

/-- Session start for an empty ROM: nothing is written, nothing is lit, no byte differs from the reset contents. -/
theorem State.start_inv (cfg : Config) : (State.start cfg).Inv :=
  have ⟨hrows, hcolumns⟩ := fbShape_dark cfg
  ⟨Nat.zero_le _, rfl, rfl, hrows, hcolumns, rfl⟩

/-- Session start answers the state with the ROM loaded where it fits, and the state of the failed load where it does not. -/
theorem startSession_cases {cfg : Config} {rom : List Byte} {t : State} (h : startSession cfg rom = .next t) :
    LegalByR8 cfg ∧
      (cfg.programStartAddress.toNat + rom.length ≤ cfg.memorySize ∧
        t = (State.start cfg).putBytes cfg.programStartAddress.toNat rom ∨
      cfg.memorySize < cfg.programStartAddress.toNat + rom.length ∧
        t = { State.start cfg with status := .fatal (.outOfRange cfg.memorySize .romLoad), outputs := [] }) := by
  unfold startSession at h
  split at h
  · next hlegal =>
    refine ⟨(legalConfig_iff cfg).1 hlegal, ?_⟩
    split at h
    · next hfits => cases h; exact .inl ⟨hfits, rfl⟩
    · next hfits => cases h; exact .inr ⟨Nat.lt_of_not_le hfits, rfl⟩
  · cases h

/-! ### Two runs that differ in the sound timer (R33, R280) -/

/-- The state with another sound timer, another tone and other emitted calls. -/
def State.withSound (b : Byte) (on : Bool) (outs : List Output) (s : State) : State :=
  { s with st := b, toneOn := on, outputs := outs }

/-- Both results are next states, and these differ in nothing but the sound timer, the tone and the emitted calls. -/
def AgreeButSound (r r' : Result) : Prop :=
  ∃ t t', r = .next t ∧ r' = .next t' ∧ t' = { t with st := t'.st, toneOn := t'.toneOn, outputs := t'.outputs }

section
variable {b : Byte} {on : Bool} {outs : List Output}

/-- Two checks with the same fault, or with values that the continuations agree on, agree. -/
theorem AgreeButSound.orRaise {α β : Type} {s : State} {c : Except SessionFault α} {c' : Except SessionFault β}
    {f : α → β} {k : α → Result} {k' : β → Result} (hc : c' = c.map f) (hk : ∀ a, AgreeButSound (k a) (k' (f a))) :
    AgreeButSound (orRaise s c k) (orRaise (s.withSound b on outs) c' k') := by
  subst hc
  cases c with
  | ok a => exact hk a
  | error e => exact ⟨s.faulted e, (s.withSound b on outs).faulted e, rfl, rfl, rfl⟩

theorem unknownInstruction_agreeButSound (op : Word) (s : State) :
    AgreeButSound (unknownInstruction op s) (unknownInstruction op (s.withSound b on outs)) := by
  have hp : (s.withSound b on outs).cfg.unknownOpcodePolicy = s.cfg.unknownOpcodePolicy := rfl
  unfold unknownInstruction
  rw [hp]
  split
  · exact ⟨_, _, rfl, rfl, rfl⟩
  · exact ⟨_, _, rfl, rfl, rfl⟩

theorem checkRange_withSound (op : AccessOp) (a n : Nat) (s : State) :
    checkRange op a n (s.withSound b on outs) = checkRange op a n s := rfl

theorem bytesAt_withSound (s : State) (a n : Nat) : (s.withSound b on outs).bytesAt a n = s.bytesAt a n := by
  induction n generalizing a with
  | zero => rfl
  | succ n ih => exact congrArg (s.byteAt a :: ·) (ih (a + 1))

theorem readBlock_withSound (a n : Nat) (s : State) :
    readBlock a n (s.withSound b on outs) = (readBlock a n s).map id := by
  rw [Except.map_id, id, readBlock, readBlock, checkRange_withSound, bytesAt_withSound]

theorem writeBlock_withSound (a : Nat) (bs : List Byte) (s : State) :
    writeBlock a bs (s.withSound b on outs) = (writeBlock a bs s).map (State.withSound b on outs) := by
  rw [writeBlock, writeBlock, checkRange_withSound]
  cases checkRange .write a bs.length s <;> rfl

theorem push_withSound (v : Word) (s : State) :
    push v (s.withSound b on outs) = (push v s).map (State.withSound b on outs) := by
  by_cases h : s.stack.length = s.cfg.stackSize
  · rw [push_full h, push_full (s := s.withSound b on outs) h]; rfl
  · rw [push_ok h, push_ok (s := s.withSound b on outs) h]; rfl

theorem pop_withSound (s : State) :
    pop (s.withSound b on outs) = (pop s).map (Prod.map id (State.withSound b on outs)) := by
  cases h : s.stack with
  | nil => rw [pop_nil h, pop_nil (s := s.withSound b on outs) h]; rfl
  | cons a rest => rw [pop_cons h, pop_cons (s := s.withSound b on outs) h]; rfl

theorem keyNamedBy_withSound (v : Byte) (s : State) :
    keyNamedBy v (s.withSound b on outs) = (keyNamedBy v s).map id := by
  rw [Except.map_id]; rfl

/-- No instruction reads the sound timer, the tone or the emitted calls but to write them again. -/
theorem exec_agreeButSound (i : Instr) (s : State) : AgreeButSound (exec i s) (exec i (s.withSound b on outs)) := by
  cases i with
  | sys => exact unknownInstruction_agreeButSound _ s
  | ret => exact .orRaise (pop_withSound s) fun _ => ⟨_, _, rfl, rfl, rfl⟩
  | call => exact .orRaise (push_withSound s.pc s) fun _ => ⟨_, _, rfl, rfl, rfl⟩
  | skp x | sknp x => exact .orRaise (keyNamedBy_withSound (s.reg x) s) fun _ => ⟨_, _, rfl, rfl, rfl⟩
  | drw x y n =>
    have hm : (s.withSound b on outs).mode = s.mode := rfl
    rw [exec, exec, execDrw, execDrw, hm]
    by_cases hz : n = 0 ∧ s.mode = .superChip
    · rw [if_pos hz, if_pos hz]
      exact unknownInstruction_agreeButSound _ s
    · rw [if_neg hz, if_neg hz]
      exact .orRaise (readBlock_withSound _ n.val s) fun _ => ⟨_, _, rfl, rfl, rfl⟩
  | ldBVx x => exact .orRaise (writeBlock_withSound _ (bcdDigits (s.reg x)) s) fun _ => ⟨_, _, rfl, rfl, rfl⟩
  | storeRegs x => exact .orRaise (writeBlock_withSound _ (s.regsUpTo x) s) fun _ => ⟨_, _, rfl, rfl, rfl⟩
  | loadRegs x => exact .orRaise (readBlock_withSound _ (x.val + 1) s) fun _ => ⟨_, _, rfl, rfl, rfl⟩
  | ldVxK x =>
    have hk : (s.withSound b on outs).activeKeys = s.activeKeys := rfl
    rw [exec, exec, execLdVxK, execLdVxK, hk]
    split
    · exact ⟨_, _, rfl, rfl, rfl⟩
    · exact ⟨_, _, rfl, rfl, rfl⟩
  | _ => exact ⟨_, _, rfl, rfl, rfl⟩

end

/-! ### The obligations of the family -/

/-- Settles O53: the agent's step keeps the invariant, and so does taking its turn off the agenda. -/
theorem stepKeepsInvariant : Obligations.StepKeepsInvariant := by
  intro s t hs h
  obtain ⟨-, -, ha⟩ := step_cases h
  exact agentStep_inv ha hs.of_otherFields

/-- Settles O54: the ROM is written inside memory, and a failed load writes nothing. -/
theorem sessionStartMeetsInvariant : Obligations.SessionStartMeetsInvariant := by
  refine ⟨State.start_inv Config.default, fun cfg rom t h => ?_⟩
  obtain ⟨-, ⟨hfits, rfl⟩ | ⟨-, rfl⟩⟩ := startSession_cases h
  · exact (State.start_inv cfg).putBytes (.inr hfits)
  · exact (State.start_inv cfg).of_otherFields

/-- Settles O57: the fault case is excluded, and the effect of each instruction says where `pc` goes. -/
theorem pcMovesAsTheRulesSay : Obligations.PcMovesAsTheRulesSay := by
  intro i s t h hf
  obtain ⟨f, rfl⟩ | he := exec_cases h
  · exact absurd ⟨f, State.faulted_status f s⟩ hf
  · exact he.pc_cases

/-- Settles O58: a fault changes no register, and an effect only those that the row names. -/
theorem registersChangeOnlyWhereNamed : Obligations.RegistersChangeOnlyWhereNamed := by
  intro i s t j h hw
  obtain ⟨f, rfl⟩ | he := exec_cases h
  · exact State.faulted_reg f s j
  · exact he.reg_eq hw

/-- Settles O59: the frame of every instruction; a byte can differ only if the memory does. -/
theorem otherStateChangesOnlyWhereNamed : Obligations.OtherStateChangesOnlyWhereNamed := by
  intro i s t h
  have hf := exec_frame h
  refine ⟨hf.index, hf.stack, hf.delay, hf.sound, hf.display, hf.key, fun ⟨a, ha⟩ => hf.memory fun hm => ?_⟩
  exact ha (State.byteAt_congr hm (exec_cfg h) a)

/-- Settles O60: the two runs agree but for the sound timer, instruction by instruction. -/
theorem soundTimerIsUnobservable : Obligations.SoundTimerIsUnobservable :=
  fun i s _ _ _ => exec_agreeButSound i s

/-- Settles O5: the two fixed features by mode, the others by what the map lists first. -/
theorem featuresByMode : Obligations.FeaturesByMode := by
  intro cfg n
  refine ⟨?_, ?_, fun h => flagOf_of_notMem h, fun pre b rest hm hpre => ?_⟩
  · cases h : cfg.systemMode <;> simp [isEnabled, modeFeatures, h]
  · cases h : cfg.systemMode <;> simp [isEnabled, modeFeatures, h]
  · rw [isEnabled, hm]; exact flagOf_of_firstEntry hpre b rest

/-- Settles O16: past the check of the configuration, `step` has only the status to look at. -/
theorem endedSessionHasNoStep : Obligations.EndedSessionHasNoStep := by
  intro s hl
  have hstep := (legalConfig_iff s.cfg).2 hl
  exact ⟨fun hs => by simp [step, hstep, hs], fun f hs => by simp [step, hstep, hs]⟩

/-- Settles O20: CALL with room on the stack, and on a full one. -/
theorem callPushesItsAddress : Obligations.CallPushesItsAddress :=
  fun _ nnn => ⟨fun h => ⟨_, exec_call_of_room h nnn, rfl, toNat_zext16 nnn⟩, fun h => exec_call_of_full h nnn⟩

/-- Settles O21: RET on a non-empty stack, and on an empty one. -/
theorem retResumesAfterCall : Obligations.RetResumesAfterCall :=
  fun _ => ⟨fun a _ h => ⟨_, exec_ret_of_cons h, rfl, BitVec.toNat_add a 2⟩, exec_ret_of_nil⟩

/-- Settles O23: a push on a full stack and on any other, a pop of a non-empty stack and of an empty one. -/
theorem pushThenPop : Obligations.PushThenPop :=
  fun _ _ => ⟨push_full, fun h => ⟨_, push_ok h, rfl, rfl⟩, fun _ _ h => pop_cons h, pop_nil⟩

end Sys2Proof.Machine
end

section
/-! SUPPORT. The family of 20_memory.md: the accesses of one byte (R64, R66), a block read back (R66, R82), and the lowest
failing address (R82). -/

namespace Sys2Proof.Machine

/-! ### The accesses of one byte (R64) -/

/-- A block of one byte is the byte operation, written. -/
theorem writeBlock_singleton (a : Nat) (b : Byte) (s : State) : writeBlock a [b] s = memWrite a b s := rfl

/-- A block of one byte is the byte operation, read. -/
theorem readBlock_one (a : Nat) (s : State) : readBlock a 1 s = (memRead a s).map fun c => [c] := by
  rw [readBlock, memRead]
  cases checkRange .read a 1 s <;> rfl

theorem memRead_ok {a : Nat} {s : State} (h : a < s.cfg.memorySize) : memRead a s = .ok (s.byteAt a) := by
  rw [memRead, checkRange_ok .read (.inr h)]; rfl

theorem memRead_error {a : Nat} {s : State} (h : s.cfg.memorySize ≤ a) : memRead a s = .error (.outOfRange a .read) := by
  rw [memRead, checkRange_error .read Nat.one_ne_zero (Nat.lt_succ_of_le h), max_eq_left h]; rfl

theorem memWrite_ok {a : Nat} {s : State} (h : a < s.cfg.memorySize) (b : Byte) : memWrite a b s = .ok (s.putByte a b) :=
  writeBlock_ok (bs := [b]) (.inr h)

theorem memWrite_error {a : Nat} {s : State} (h : s.cfg.memorySize ≤ a) (b : Byte) :
    memWrite a b s = .error (.outOfRange a .write) := by
  rw [← writeBlock_singleton, writeBlock_error (bs := [b]) Nat.one_ne_zero (Nat.lt_succ_of_le h), max_eq_left h]

/-- A read depends on the configuration, for its range check, and on the byte at its address. -/
theorem memRead_congr {a : Nat} {s t : State} (hc : t.cfg = s.cfg) (hb : t.byteAt a = s.byteAt a) :
    memRead a t = memRead a s := by
  simp only [memRead, checkRange, hc, hb]

/-! ### A block read back (R66) -/

theorem State.bytesAt_putBytes {s : State} (h : s.MemWf) {a : Nat} {bs : List Byte}
    (ha : a + bs.length ≤ s.cfg.memorySize) : (s.putBytes a bs).bytesAt a bs.length = bs := by
  refine List.ext_getElem (length_bytesAt ..) fun k hk hk' => ?_
  have hget := getD_bytesAt (s.putBytes a bs) a bs.length k hk'
  rw [byteAt_putBytes h ha, if_pos (by omega), Nat.add_sub_cancel_left] at hget
  rwa [List.getD_eq_getElem _ _ hk, List.getD_eq_getElem _ _ hk'] at hget

/-- What a block write leaves in memory, read back as a block. -/
theorem readBlock_putBytes {s : State} (h : s.MemWf) {a : Nat} {bs : List Byte}
    (ha : a + bs.length ≤ s.cfg.memorySize) : readBlock a bs.length (s.putBytes a bs) = .ok bs := by
  rw [readBlock_ok (s := s.putBytes a bs) (.inr ha), State.bytesAt_putBytes h ha]

/-- A block write changes no read outside the block. -/
theorem memRead_putBytes_of_outside {s : State} (h : s.MemWf) {a : Nat} {bs : List Byte}
    (ha : a + bs.length ≤ s.cfg.memorySize) {x : Nat} (hx : x < a ∨ a + bs.length ≤ x) :
    memRead x (s.putBytes a bs) = memRead x s :=
  memRead_congr rfl ((State.byteAt_putBytes h ha x).trans (if_neg (by omega)))

/-! ### The lowest failing address (R82) -/

/-- The first address of a transfer that is out of range is the one that the range check reports. -/
theorem max_eq_of_lowestFailing {size a r : Nat} (hr : size ≤ a + r) (hlow : ∀ r', r' < r → a + r' < size) :
    max a size = a + r := by
  cases r with
  | zero => exact max_eq_left hr
  | succ r =>
    have hlast : a + r < size := hlow r (Nat.lt_succ_self r)
    omega

theorem writeBlock_error_of_lowestFailing {s : State} {a r : Nat} {bs : List Byte} (hlt : r < bs.length)
    (hr : s.cfg.memorySize ≤ a + r) (hlow : ∀ r', r' < r → a + r' < s.cfg.memorySize) :
    writeBlock a bs s = .error (.outOfRange (a + r) .write) := by
  rw [writeBlock_error (by omega) (by omega), max_eq_of_lowestFailing hr hlow]

theorem readBlock_error_of_lowestFailing {s : State} {a r n : Nat} (hlt : r < n)
    (hr : s.cfg.memorySize ≤ a + r) (hlow : ∀ r', r' < r → a + r' < s.cfg.memorySize) :
    readBlock a n s = .error (.outOfRange (a + r) .read) := by
  rw [readBlock_error (by omega) (by omega), max_eq_of_lowestFailing hr hlow]

/-! ### The obligation of the family -/

/-- A byte written in range: the write succeeds, keeps the canonical form, is read back, and changes no other read. -/
theorem memWrite_inRange {s : State} (h : MemCanonical s) {a : Nat} (ha : a < s.cfg.memorySize) (b : Byte) :
    ∃ t, memWrite a b s = .ok t ∧ t = { s with mem := t.mem } ∧ MemCanonical t ∧
      memRead a t = .ok b ∧ ∀ a', a' ≠ a → memRead a' t = memRead a' s := by
  refine ⟨s.putByte a b, memWrite_ok ha b, rfl, State.memWf_putByte h b ha, ?_, fun a' hne => memRead_congr rfl ?_⟩
  · rw [memRead_ok (s := s.putByte a b) ha, State.byteAt_putByte h, if_pos rfl]
  · rw [State.byteAt_putByte h, if_neg hne]

/-- A block written in range: the write succeeds, keeps the canonical form, is read back, and changes no read outside it. -/
theorem writeBlock_inRange {s : State} (h : MemCanonical s) {a : Nat} {bs : List Byte}
    (ha : a + bs.length ≤ s.cfg.memorySize) :
    ∃ t, writeBlock a bs s = .ok t ∧ t = { s with mem := t.mem } ∧ MemCanonical t ∧
      readBlock a bs.length t = .ok bs ∧ ∀ a', (a' < a ∨ a + bs.length ≤ a') → memRead a' t = memRead a' s :=
  ⟨s.putBytes a bs, writeBlock_ok (.inr ha), rfl, State.memWf_putBytes h ha, readBlock_putBytes h ha,
    fun _ => memRead_putBytes_of_outside h ha⟩

/-- Settles O43: the byte operations in range and out of range, the block operations in range and at their lowest failing
address, and the block of one byte. -/
theorem memoryReadAfterWrite : Obligations.MemoryReadAfterWrite := by
  refine ⟨fun s a b h => ⟨fun ha => ?_, fun ha => ⟨memWrite_error ha b, memRead_error ha⟩⟩,
    fun s a bs h => ⟨writeBlock_inRange h, fun r hlt hr hlow => ?_⟩,
    fun s a b => ⟨writeBlock_singleton a b s, readBlock_one a s⟩⟩
  · obtain ⟨t, hwrite, hframe, hform, hsame, hother⟩ := memWrite_inRange h ha b
    exact ⟨t, hwrite, hframe, hform, hsame, hother, memRead_ok ha⟩
  · exact ⟨writeBlock_error_of_lowestFailing hlt hr hlow, readBlock_error_of_lowestFailing hlt hr hlow⟩

end Sys2Proof.Machine
end

section
/-! SUPPORT. The family of 30_encoding.md: what decoding a word answers (R95 to R102), the round trips between decoder and
encoder (R95, R104), the selection of a row by mask and match (R104), the assembler (R104 to R106), and a fetch that faults or
meets a rejected word (R100, R101, R266). -/

namespace Sys2Proof

/-! ### A word from its selector and its fields (R104) -/

theorem wordNNN_of_selector {op : Word} {s : BitVec 4} (hs : (fieldS op).toNat = s.toNat) :
    wordNNN s (fieldNNN op) = op := by
  rw [← BitVec.eq_of_toNat_eq hs, wordNNN_fields]

theorem wordXKK_of_fields {op : Word} {s : BitVec 4} {kk : Byte} (hs : (fieldS op).toNat = s.toNat)
    (hk : (fieldKK op).toNat = kk.toNat) : wordXKK s (fieldX op) kk = op := by
  rw [← BitVec.eq_of_toNat_eq hs, ← BitVec.eq_of_toNat_eq hk, wordXKK_fields]

theorem wordXYN_of_fields {op : Word} {s : BitVec 4} {n : Idx} (hs : (fieldS op).toNat = s.toNat)
    (hn : (fieldN op).val = n.val) : wordXYN s (fieldX op) (fieldY op) n = op := by
  rw [← BitVec.eq_of_toNat_eq hs, ← Fin.ext hn, wordXYN_fields]

/-! ### What decoding a word answers (R95 to R102) -/

/-- The words of R102's table that each reason to reject stands for. -/
def Reserved.Covers (op : Word) (mode : SystemMode) : Reserved → Prop
  | .group5 => op.toNat / 4096 = 0x5 ∧ op.toNat % 16 ≠ 0
  | .group8 => op.toNat / 4096 = 0x8 ∧ op.toNat % 16 ∈ [0x8, 0x9, 0xA, 0xB, 0xC, 0xD, 0xF]
  | .group9 => op.toNat / 4096 = 0x9 ∧ op.toNat % 16 ≠ 0
  | .dxy0SuperChip => op.toNat / 4096 = 0xD ∧ op.toNat % 16 = 0 ∧ mode = .superChip
  | .groupE => op.toNat / 4096 = 0xE ∧ op.toNat % 256 ∉ [0x9E, 0xA1]
  | .groupF => op.toNat / 4096 = 0xF ∧
      op.toNat % 256 ∉ [0x07, 0x0A, 0x15, 0x18, 0x1E, 0x29, 0x33, 0x55, 0x65]

/-- An answer that is right for a word: a well-formed instruction whose encoding is the word, or a rejection by the row of
R102's table that the word is in. -/
def RightAnswer (op : Word) (mode : SystemMode) : Except DecodeError Instr → Prop
  | .ok i => encode i = op ∧ i.wellFormed mode = true
  | .error e => ∃ why : Reserved, e = .unknown why op ∧ why.Covers op mode

section
variable {op : Word}

theorem decode0_rightAnswer (mode : SystemMode) (hs : (fieldS op).toNat = 0x0) : RightAnswer op mode (decode0 op) := by
  unfold decode0
  split
  · next h => exact ⟨h.symm, rfl⟩
  · next hcls =>
    split
    · next h => exact ⟨h.symm, rfl⟩
    · next hret =>
      have henc : encode (.sys (fieldNNN op)) = op := wordNNN_of_selector hs
      have hne0 : fieldNNN op ≠ 0x0E0#12 := fun h => hcls (by rw [← henc, h]; rfl)
      have hneE : fieldNNN op ≠ 0x0EE#12 := fun h => hret (by rw [← henc, h]; rfl)
      exact ⟨henc, by simp [Instr.wellFormed, hne0, hneE]⟩

theorem decode5_rightAnswer (mode : SystemMode) (hs : (fieldS op).toNat = 0x5) : RightAnswer op mode (decode5 op) := by
  unfold decode5
  split
  · next hn => exact ⟨wordXYN_of_fields hs (congrArg Fin.val hn), rfl⟩
  · next hn => exact ⟨.group5, rfl, toNat_fieldS op ▸ hs, val_fieldN op ▸ fun h => hn (Fin.ext h)⟩

theorem decode8_rightAnswer (mode : SystemMode) (hs : (fieldS op).toNat = 0x8) : RightAnswer op mode (decode8 op) := by
  unfold decode8
  split
  case h_10 =>
    have hn := val_fieldN op
    simp only [imp_false] at *
    exact ⟨.group8, rfl, toNat_fieldS op ▸ hs, by simp; omega⟩
  all_goals next hn => exact ⟨wordXYN_of_fields hs hn, rfl⟩

theorem decode9_rightAnswer (mode : SystemMode) (hs : (fieldS op).toNat = 0x9) : RightAnswer op mode (decode9 op) := by
  unfold decode9
  split
  · next hn => exact ⟨wordXYN_of_fields hs (congrArg Fin.val hn), rfl⟩
  · next hn => exact ⟨.group9, rfl, toNat_fieldS op ▸ hs, val_fieldN op ▸ fun h => hn (Fin.ext h)⟩

theorem decodeD_rightAnswer (mode : SystemMode) (hs : (fieldS op).toNat = 0xD) :
    RightAnswer op mode (decodeD op mode) := by
  unfold decodeD
  split
  · next h =>
    obtain ⟨hn, hmode⟩ := h
    exact ⟨.dxy0SuperChip, rfl, toNat_fieldS op ▸ hs, val_fieldN op ▸ congrArg Fin.val hn, hmode⟩
  · next h => exact ⟨wordXYN_of_fields hs rfl, by simpa [Instr.wellFormed, imp_iff_not_or] using h⟩

theorem decodeE_rightAnswer (mode : SystemMode) (hs : (fieldS op).toNat = 0xE) : RightAnswer op mode (decodeE op) := by
  unfold decodeE
  split
  case h_3 =>
    have hk := toNat_fieldKK op
    simp only [imp_false] at *
    exact ⟨.groupE, rfl, toNat_fieldS op ▸ hs, by simp; omega⟩
  all_goals next hk => exact ⟨wordXKK_of_fields hs hk, rfl⟩

theorem decodeF_rightAnswer (mode : SystemMode) (hs : (fieldS op).toNat = 0xF) : RightAnswer op mode (decodeF op) := by
  unfold decodeF
  split
  case h_10 =>
    have hk := toNat_fieldKK op
    simp only [imp_false] at *
    exact ⟨.groupF, rfl, toNat_fieldS op ▸ hs, by simp; omega⟩
  all_goals next hk => exact ⟨wordXKK_of_fields hs hk, rfl⟩

end

/-- The decoder answers right on every word in every mode. -/
theorem decode_rightAnswer (op : Word) (mode : SystemMode) : RightAnswer op mode (decode op mode) := by
  unfold decode
  split
  · next hs => exact decode0_rightAnswer mode hs
  · next hs => exact ⟨wordNNN_of_selector hs, rfl⟩
  · next hs => exact ⟨wordNNN_of_selector hs, rfl⟩
  · next hs => exact ⟨wordXKK_of_fields hs rfl, rfl⟩
  · next hs => exact ⟨wordXKK_of_fields hs rfl, rfl⟩
  · next hs => exact decode5_rightAnswer mode hs
  · next hs => exact ⟨wordXKK_of_fields hs rfl, rfl⟩
  · next hs => exact ⟨wordXKK_of_fields hs rfl, rfl⟩
  · next hs => exact decode8_rightAnswer mode hs
  · next hs => exact decode9_rightAnswer mode hs
  · next hs => exact ⟨wordNNN_of_selector hs, rfl⟩
  · next hs => exact ⟨wordNNN_of_selector hs, rfl⟩
  · next hs => exact ⟨wordXKK_of_fields hs rfl, rfl⟩
  · next hs => exact decodeD_rightAnswer mode hs
  · next hs => exact decodeE_rightAnswer mode hs
  · have hlt := (fieldS op).isLt
    simp only [imp_false] at *
    exact decodeF_rightAnswer mode (by omega)

theorem decode_eq_ok {op : Word} {mode : SystemMode} {i : Instr} (h : decode op mode = .ok i) :
    encode i = op ∧ i.wellFormed mode = true := by
  have hr := decode_rightAnswer op mode
  rwa [h] at hr

theorem decode_eq_error {op : Word} {mode : SystemMode} {e : DecodeError} (h : decode op mode = .error e) :
    ∃ why : Reserved, e = .unknown why op ∧ why.Covers op mode := by
  have hr := decode_rightAnswer op mode
  rwa [h] at hr

/-! ### Decoding an encoding (R95, R104) -/

theorem decode_encode_sys {nnn : Addr12} (h0 : nnn ≠ 0x0E0) (hE : nnn ≠ 0x0EE) (mode : SystemMode) :
    decode (encode (.sys nnn)) mode = .ok (.sys nnn) := by
  have hcls : wordNNN 0#4 nnn ≠ 0x00E0#16 := fun h => h0 (by rw [← fieldNNN_wordNNN 0#4 nnn, h]; rfl)
  have hret : wordNNN 0#4 nnn ≠ 0x00EE#16 := fun h => hE (by rw [← fieldNNN_wordNNN 0#4 nnn, h]; rfl)
  simp [encode, decode, decode0, hcls, hret]

theorem decode_encode_drw {n : Idx} {mode : SystemMode} (h : n ≠ 0 ∨ mode ≠ .superChip) (x y : Idx) :
    decode (encode (.drw x y n)) mode = .ok (.drw x y n) := by
  simp [encode, decode, decodeD, imp_iff_not_or, h]

theorem decode_encode {i : Instr} {mode : SystemMode} (h : i.wellFormed mode = true) :
    decode (encode i) mode = .ok i := by
  cases i with
  | sys nnn =>
    obtain ⟨h0, hE⟩ : nnn ≠ 0x0E0 ∧ nnn ≠ 0x0EE := by simpa [Instr.wellFormed] using h
    exact decode_encode_sys h0 hE mode
  | drw x y n => exact decode_encode_drw (by simpa [Instr.wellFormed] using h) x y
  | cls | ret => rfl
  | jp | call | ldI | jpV0 | seByte | sneByte | ldByte | addByte | rnd => simp [encode, decode]
  | seReg => simp [encode, decode, decode5]
  | sneReg => simp [encode, decode, decode9]
  | ldReg | orReg | andReg | xorReg | addReg | subReg | shr | subn | shl => simp [encode, decode, decode8]
  | skp | sknp => simp [encode, decode, decodeE]
  | ldVxDT | ldVxK | ldDTVx | ldSTVx | addIVx | ldFVx | ldBVx | storeRegs | loadRegs => simp [encode, decode, decodeF]

/-- What decodes to an instruction: its encoding, where it is well-formed. -/
theorem decode_eq_ok_iff {op : Word} {mode : SystemMode} {i : Instr} :
    decode op mode = .ok i ↔ encode i = op ∧ i.wellFormed mode = true :=
  ⟨decode_eq_ok, fun ⟨he, hw⟩ => he ▸ decode_encode hw⟩

theorem decodeBytes_encodeBytes {i : Instr} {mode : SystemMode} (h : i.wellFormed mode = true) (rest : List Byte) :
    decodeBytes mode (encodeBytes i ++ rest) = .ok (i, rest) := by
  simp [encodeBytes, decodeBytes, decode_encode h, Except.map]

/-! ### The words of R102's table, and the mode (R102, R108) -/

/-- A word in a rejecting row of R102's table is rejected, by that row's name. -/
theorem decode_of_covers {op : Word} {mode : SystemMode} {why : Reserved} (h : why.Covers op mode) :
    decode op mode = .error (.unknown why op) := by
  cases why with
  | group5 | group9 =>
    obtain ⟨hsel, hn⟩ := h
    simp [decode, toNat_fieldS, hsel, decode5, decode9, Fin.ext_iff, val_fieldN, hn]
  | dxy0SuperChip =>
    obtain ⟨hsel, hn, hmode⟩ := h
    simp [decode, toNat_fieldS, hsel, decodeD, Fin.ext_iff, val_fieldN, hn, hmode]
  | group8 =>
    obtain ⟨hsel, hn⟩ := h
    simp only [List.mem_cons, List.not_mem_nil, or_false] at hn
    obtain hn | hn | hn | hn | hn | hn | hn := hn <;> simp [decode, toNat_fieldS, hsel, decode8, val_fieldN, hn]
  | groupE | groupF =>
    obtain ⟨hsel, hk⟩ := h
    simp only [List.mem_cons, List.not_mem_nil, or_false, not_or] at hk
    simp [decode, toNat_fieldS, hsel, decodeE, decodeF, toNat_fieldKK, hk]

/-- The words of the table's SYS row. -/
theorem decode_eq_sys_iff {op : Word} {mode : SystemMode} :
    (∃ nnn, decode op mode = .ok (.sys nnn)) ↔ op.toNat / 4096 = 0x0 ∧ op ≠ 0x00E0 ∧ op ≠ 0x00EE := by
  constructor
  · rintro ⟨nnn, h⟩
    have hop : op.toNat = 0 * 4096 + nnn.toNat := (decode_eq_ok h).1 ▸ toNat_wordNNN 0x0 nnn
    refine ⟨by omega, fun hcls => ?_, fun hret => ?_⟩
    · rw [hcls] at h; cases h
    · rw [hret] at h; cases h
  · rintro ⟨hsel, hcls, hret⟩
    exact ⟨fieldNNN op, by simp only [decode, toNat_fieldS, hsel, decode0, if_neg hcls, if_neg hret]⟩

theorem decode_eq_error_iff {op : Word} {mode : SystemMode} :
    (∃ e, decode op mode = .error e) ↔ ∃ why : Reserved, why.Covers op mode := by
  constructor
  · rintro ⟨e, h⟩
    obtain ⟨why, -, hc⟩ := decode_eq_error h
    exact ⟨why, hc⟩
  · rintro ⟨why, hc⟩
    exact ⟨_, decode_of_covers hc⟩

/-- Whether a row of R102's table holds a word depends on the mode for `Dxy0` alone. -/
theorem Reserved.Covers.inMode {op : Word} {m : SystemMode} {why : Reserved} (hc : why.Covers op m)
    (h : ¬(op.toNat / 4096 = 0xD ∧ op.toNat % 16 = 0)) (m' : SystemMode) : why.Covers op m' := by
  cases why with
  | dxy0SuperChip =>
    obtain ⟨hsel, hn, -⟩ := hc
    exact absurd ⟨hsel, hn⟩ h
  | group5 | group8 | group9 | groupE | groupF => exact hc

/-- Whether an instruction is well-formed depends on the mode for `Dxy0` alone. -/
theorem wellFormed_inMode {i : Instr} {m : SystemMode} (hw : i.wellFormed m = true)
    (h : ¬((encode i).toNat / 4096 = 0xD ∧ (encode i).toNat % 16 = 0)) (m' : SystemMode) : i.wellFormed m' = true := by
  cases i with
  | drw x y n =>
    have hop : (encode (.drw x y n)).toNat = 13 * 4096 + x.val * 256 + y.val * 16 + n.val := toNat_wordXYN 0xD x y n
    have hn : n ≠ 0 := fun h0 => h (by rw [hop, h0]; omega)
    simp [Instr.wellFormed, hn]
  | _ => exact hw

/-! ### The row that mask and match select (R104) -/

theorem encode_and_tableMask : ∀ i : Instr, encode i &&& tableMask i = tableMatch i
  | .sys nnn => Laws.TablePattern.sys nnn
  | .cls => Laws.TablePattern.cls
  | .ret => Laws.TablePattern.ret
  | .jp nnn => Laws.TablePattern.jp nnn
  | .call nnn => Laws.TablePattern.call nnn
  | .seByte x kk => Laws.TablePattern.seByte x kk
  | .sneByte x kk => Laws.TablePattern.sneByte x kk
  | .seReg x y => Laws.TablePattern.seReg x y
  | .ldByte x kk => Laws.TablePattern.ldByte x kk
  | .addByte x kk => Laws.TablePattern.addByte x kk
  | .ldReg x y => Laws.TablePattern.ldReg x y
  | .orReg x y => Laws.TablePattern.orReg x y
  | .andReg x y => Laws.TablePattern.andReg x y
  | .xorReg x y => Laws.TablePattern.xorReg x y
  | .addReg x y => Laws.TablePattern.addReg x y
  | .subReg x y => Laws.TablePattern.subReg x y
  | .shr x y => Laws.TablePattern.shr x y
  | .subn x y => Laws.TablePattern.subn x y
  | .shl x y => Laws.TablePattern.shl x y
  | .sneReg x y => Laws.TablePattern.sneReg x y
  | .ldI nnn => Laws.TablePattern.ldI nnn
  | .jpV0 nnn => Laws.TablePattern.jpV0 nnn
  | .rnd x kk => Laws.TablePattern.rnd x kk
  | .drw x y n => Laws.TablePattern.drw x y n
  | .skp x => Laws.TablePattern.skp x
  | .sknp x => Laws.TablePattern.sknp x
  | .ldVxDT x => Laws.TablePattern.ldVxDT x
  | .ldVxK x => Laws.TablePattern.ldVxK x
  | .ldDTVx x => Laws.TablePattern.ldDTVx x
  | .ldSTVx x => Laws.TablePattern.ldSTVx x
  | .addIVx x => Laws.TablePattern.addIVx x
  | .ldFVx x => Laws.TablePattern.ldFVx x
  | .ldBVx x => Laws.TablePattern.ldBVx x
  | .storeRegs x => Laws.TablePattern.storeRegs x
  | .loadRegs x => Laws.TablePattern.loadRegs x

/-- The instruction of the same row of R104's table with the operand fields of a word. -/
def Instr.withFieldsOf (op : Word) : Instr → Instr
  | .sys _ => .sys (fieldNNN op)
  | .cls => .cls
  | .ret => .ret
  | .jp _ => .jp (fieldNNN op)
  | .call _ => .call (fieldNNN op)
  | .seByte _ _ => .seByte (fieldX op) (fieldKK op)
  | .sneByte _ _ => .sneByte (fieldX op) (fieldKK op)
  | .seReg _ _ => .seReg (fieldX op) (fieldY op)
  | .ldByte _ _ => .ldByte (fieldX op) (fieldKK op)
  | .addByte _ _ => .addByte (fieldX op) (fieldKK op)
  | .ldReg _ _ => .ldReg (fieldX op) (fieldY op)
  | .orReg _ _ => .orReg (fieldX op) (fieldY op)
  | .andReg _ _ => .andReg (fieldX op) (fieldY op)
  | .xorReg _ _ => .xorReg (fieldX op) (fieldY op)
  | .addReg _ _ => .addReg (fieldX op) (fieldY op)
  | .subReg _ _ => .subReg (fieldX op) (fieldY op)
  | .shr _ _ => .shr (fieldX op) (fieldY op)
  | .subn _ _ => .subn (fieldX op) (fieldY op)
  | .shl _ _ => .shl (fieldX op) (fieldY op)
  | .sneReg _ _ => .sneReg (fieldX op) (fieldY op)
  | .ldI _ => .ldI (fieldNNN op)
  | .jpV0 _ => .jpV0 (fieldNNN op)
  | .rnd _ _ => .rnd (fieldX op) (fieldKK op)
  | .drw _ _ _ => .drw (fieldX op) (fieldY op) (fieldN op)
  | .skp _ => .skp (fieldX op)
  | .sknp _ => .sknp (fieldX op)
  | .ldVxDT _ => .ldVxDT (fieldX op)
  | .ldVxK _ => .ldVxK (fieldX op)
  | .ldDTVx _ => .ldDTVx (fieldX op)
  | .ldSTVx _ => .ldSTVx (fieldX op)
  | .addIVx _ => .addIVx (fieldX op)
  | .ldFVx _ => .ldFVx (fieldX op)
  | .ldBVx _ => .ldBVx (fieldX op)
  | .storeRegs _ => .storeRegs (fieldX op)
  | .loadRegs _ => .loadRegs (fieldX op)

/-- The bits under the mask `F000` are the selector. -/
theorem selector_of_mask {op : Word} {s : BitVec 4} (h : op &&& 0xF000 = wordNNN s 0) : (fieldS op).toNat = s.toNat := by
  rw [← wordNNN_fields op, wordNNN_mask] at h
  have hs := congrArg fieldS h
  rw [fieldS_wordNNN, fieldS_wordNNN] at hs
  rw [hs]

/-- The bits under the mask `F0FF` are the selector and `kk`. -/
theorem wordXKK_of_byteMask {op : Word} {s : BitVec 4} {kk : Byte} (h : op &&& 0xF0FF = wordXKK s 0 kk) :
    wordXKK s (fieldX op) kk = op := by
  rw [← wordXKK_fields op, wordXKK_subMask] at h
  have hs := congrArg fieldS h
  have hk := congrArg fieldKK h
  rw [fieldS_wordXKK, fieldS_wordXKK] at hs
  rw [fieldKK_wordXKK, fieldKK_wordXKK] at hk
  exact wordXKK_of_fields (congrArg BitVec.toNat hs) (congrArg BitVec.toNat hk)

/-- The bits under the mask `F00F` are the selector and `n`. -/
theorem wordXYN_of_nibbleMask {op : Word} {s : BitVec 4} {n : Idx} (h : op &&& 0xF00F = wordXYN s 0 0 n) :
    wordXYN s (fieldX op) (fieldY op) n = op := by
  rw [← wordXYN_fields op, wordXYN_subMask] at h
  have hs := congrArg fieldS h
  have hn := congrArg fieldN h
  rw [fieldS_wordXYN, fieldS_wordXYN] at hs
  rw [fieldN_wordXYN, fieldN_wordXYN] at hn
  exact wordXYN_of_fields (congrArg BitVec.toNat hs) (congrArg Fin.val hn)

/-- A word that matches a row under its mask is the encoding of that row's instruction with the fields of the word. -/
theorem encode_withFieldsOf {op : Word} {j : Instr} (h : op &&& tableMask j = tableMatch j) :
    encode (j.withFieldsOf op) = op := by
  cases j with
  | cls | ret => exact h.symm.trans BitVec.and_allOnes
  | sys | jp | call | ldI | jpV0 => exact wordNNN_of_selector (selector_of_mask h)
  | seByte | sneByte | ldByte | addByte | rnd => exact wordXKK_of_fields (selector_of_mask h) rfl
  | drw => exact wordXYN_of_fields (selector_of_mask h) rfl
  | seReg | ldReg | orReg | andReg | xorReg | addReg | subReg | shr | subn | shl | sneReg => exact wordXYN_of_nibbleMask h
  | skp | sknp | ldVxDT | ldVxK | ldDTVx | ldSTVx | addIVx | ldFVx | ldBVx | storeRegs | loadRegs =>
    exact wordXKK_of_byteMask h

theorem tableMask_withFieldsOf (op : Word) (j : Instr) : tableMask (j.withFieldsOf op) = tableMask j := by
  cases j <;> rfl

theorem tableMatch_withFieldsOf (op : Word) (j : Instr) : tableMatch (j.withFieldsOf op) = tableMatch j := by
  cases j <;> rfl

/-- The row's instruction is well-formed, SYS and the `Dxy0` of SUPER_CHIP apart. -/
theorem wellFormed_withFieldsOf {op : Word} {mode : SystemMode} {j : Instr} (hsys : ∀ nnn, j ≠ .sys nnn)
    (hd : ¬(op.toNat / 4096 = 0xD ∧ op.toNat % 16 = 0 ∧ mode = .superChip))
    (h : op &&& tableMask j = tableMatch j) : (j.withFieldsOf op).wellFormed mode = true := by
  cases j with
  | sys nnn => exact absurd rfl (hsys nnn)
  | drw x y n =>
    have hsel : op.toNat / 4096 = 0xD := toNat_fieldS op ▸ selector_of_mask (s := 0xD) h
    simpa [Instr.withFieldsOf, Instr.wellFormed, Fin.ext_iff, val_fieldN, hsel, imp_iff_not_or] using hd
  | _ => rfl

/-! ### The assembler (R104 to R106) -/

/-- A value that fits its field is placed there. -/
@[simp] theorem assembleOperand_toNat {w : Nat} (b : BitVec w) : assembleOperand w b.toNat = some b := by
  simp [assembleOperand, b.isLt]

@[simp] theorem assembleOperand_idx (n : Idx) : assembleOperand 4 n.val = some (nibbleOfIdx n) :=
  if_pos n.isLt

theorem assembleOperand_of_tooLarge {w v : Nat} (h : 2 ^ w ≤ v) : assembleOperand w v = none :=
  if_neg (Nat.not_lt.2 h)

theorem assemble_asmForm (i : Instr) : assemble (asmForm i).1 (asmForm i).2 = some i := by
  cases i with
  | sys | call => simp [asmForm, assemble, assembleAddr]
  | jp | jpV0 => simp [asmForm, assemble, assembleJp]
  | seByte | sneByte => simp [asmForm, assemble, assembleCompare]
  | ldByte | ldI => simp [asmForm, assemble, assembleLd]
  | addByte => simp [asmForm, assemble, assembleAdd]
  | rnd => simp [asmForm, assemble, assembleRegByte]
  | drw => simp [asmForm, assemble, assembleDrw]
  | _ => rfl

theorem assemble_byte_tooLarge {v : Nat} (h : 0xFF < v) (x : Idx) {m : String}
    (hm : m ∈ ["SE", "SNE", "LD", "ADD", "RND"]) : assemble m [.reg x, .lit v] = none := by
  have hv : assembleOperand 8 v = none := assembleOperand_of_tooLarge h
  simp only [List.mem_cons, List.not_mem_nil, or_false] at hm
  obtain rfl | rfl | rfl | rfl | rfl := hm <;>
    simp [assemble, assembleCompare, assembleLd, assembleAdd, assembleRegByte, hv]

theorem assemble_address_tooLarge {v : Nat} (h : 0xFFF < v) {m : String} (hm : m ∈ ["SYS", "JP", "CALL"]) :
    assemble m [.lit v] = none := by
  have hv : assembleOperand 12 v = none := assembleOperand_of_tooLarge h
  simp only [List.mem_cons, List.not_mem_nil, or_false] at hm
  obtain rfl | rfl | rfl := hm <;> simp [assemble, assembleAddr, assembleJp, hv]

theorem assemble_indexAddress_tooLarge {v : Nat} (h : 0xFFF < v) :
    assemble "LD" [.index, .lit v] = none ∧ assemble "JP" [.reg 0, .lit v] = none := by
  have hv : assembleOperand 12 v = none := assembleOperand_of_tooLarge h
  simp [assemble, assembleLd, assembleJp, hv]

theorem assemble_rowCount_tooLarge {v : Nat} (h : 0xF < v) (x y : Idx) :
    assemble "DRW" [.reg x, .reg y, .lit v] = none := by
  have hv : assembleOperand 4 v = none := assembleOperand_of_tooLarge h
  simp [assemble, assembleDrw, hv]

/-! ### The obligations on words and lines -/

/-- Settles O6: the decoder reads each field back from the word that the encoder built of it, and the bytes give the word. -/
theorem decodeOfEncode : Obligations.DecodeOfEncode :=
  fun _ _ rest h => ⟨decode_encode h, decodeBytes_encodeBytes h rest⟩

/-- Settles O7: the decoder's answer is right, group by group. -/
theorem encodeOfDecode : Obligations.EncodeOfDecode :=
  fun _ _ _ => decode_eq_ok

/-- Settles O8: the SYS row, and the rows that reject. -/
theorem unknownWordsAreTheListedOnes : Obligations.UnknownWordsAreTheListedOnes := by
  intro op mode
  rw [decode_eq_error_iff, decode_eq_sys_iff]
  constructor
  · rintro (⟨why, hc⟩ | hsys)
    · cases why with
      | group5 => exact .inr (.inl hc)
      | group8 => exact .inr (.inr (.inl hc))
      | group9 => exact .inr (.inr (.inr (.inl hc)))
      | dxy0SuperChip => exact .inr (.inr (.inr (.inr (.inl hc))))
      | groupE => exact .inr (.inr (.inr (.inr (.inr (.inl hc)))))
      | groupF => exact .inr (.inr (.inr (.inr (.inr (.inr hc)))))
    · exact .inl hsys
  · rintro (hsys | hc | hc | hc | hc | hc | hc)
    · exact .inr hsys
    · exact .inl ⟨.group5, hc⟩
    · exact .inl ⟨.group8, hc⟩
    · exact .inl ⟨.group9, hc⟩
    · exact .inl ⟨.dxy0SuperChip, hc⟩
    · exact .inl ⟨.groupE, hc⟩
    · exact .inl ⟨.groupF, hc⟩

/-- Settles O9: what a word decodes to in one mode it decodes to in another, instruction or rejection, `Dxy0` apart. -/
theorem modeDecidesOnlyDxy0 : Obligations.ModeDecidesOnlyDxy0 := by
  refine ⟨fun op m m' h => ?_, fun op x y hop => ?_⟩
  · cases hd : decode op m with
    | ok i =>
      obtain ⟨rfl, hw⟩ := decode_eq_ok hd
      exact (decode_encode (wellFormed_inMode hw h m')).symm
    | error e =>
      obtain ⟨why, rfl, hc⟩ := decode_eq_error hd
      exact (decode_of_covers (hc.inMode h m')).symm
  · have henc : encode (.drw x y 0) = op :=
      BitVec.eq_of_toNat_eq (by rw [encode, toNat_wordXYN, hop]; simp; omega)
    refine ⟨?_, ?_, _, decode_of_covers (why := .dxy0SuperChip) ⟨by omega, by omega, rfl⟩⟩
    · rw [← henc]; exact decode_encode_drw (.inr (by decide)) x y
    · rw [← henc]; exact decode_encode_drw (.inr (by decide)) x y

/-- Settles O10: a matching word is the encoding of the row's instruction with the word's fields, and what a word decodes to
encodes to it. -/
theorem rowSelectedByMaskAndMatch : Obligations.RowSelectedByMaskAndMatch := by
  intro op mode j hsys hd
  constructor
  · intro h
    exact ⟨j.withFieldsOf op, decode_eq_ok_iff.2 ⟨encode_withFieldsOf h, wellFormed_withFieldsOf hsys hd h⟩,
      tableMask_withFieldsOf op j, tableMatch_withFieldsOf op j⟩
  · rintro ⟨i, hdec, hmask, hmatch⟩
    rw [← hmask, ← hmatch, ← (decode_eq_ok hdec).1]
    exact encode_and_tableMask i

/-- Settles O12: each operand fits its field or is refused there, and an omitted second register is `V0`. -/
theorem assemblerPlacesOperands : Obligations.AssemblerPlacesOperands :=
  ⟨assemble_asmForm, fun x _ h _ => assemble_byte_tooLarge h x,
    fun _ h => ⟨fun _ => assemble_address_tooLarge h, assemble_indexAddress_tooLarge h⟩,
    fun x y _ h => assemble_rowCount_tooLarge h x y, fun _ => ⟨rfl, rfl⟩⟩

/-- Settles O11: the decoder evaluates each word. -/
theorem sampleWordsDecode : Obligations.SampleWordsDecode :=
  ⟨rfl, rfl, rfl, rfl, rfl, rfl, rfl, rfl, rfl, rfl⟩

end Sys2Proof

namespace Sys2Proof.Machine

/-! ### The CPU's turn (R100, R101, R281) -/

theorem step_of_cpuTurn {s : State} (h : TurnOf .cpu s) : step s = cpuStep s.popAgenda := by
  obtain ⟨hlegal, hrunning, hnext⟩ := h
  have hagent : s.nextAgent = .cpu := hnext
  rw [step_of_running hlegal hrunning, hagent, agentStep]

theorem fetch_of_opcodeAtPc {s : State} {op : Word} (h : OpcodeAtPc s op) : fetch s = .ok op := by
  obtain ⟨hrange, rfl⟩ := h
  rw [fetch, checkRange_ok .fetch (.inr hrange)]
  rfl

/-- The first of the two addresses of a fetch that is not below the size of memory is the one that is reported. -/
theorem fetch_beyondMemory {s : State} (h : s.cfg.memorySize ≤ s.pc.toNat + 1) :
    fetch s = .error (.outOfRange (max s.pc.toNat s.cfg.memorySize) .fetch) := by
  rw [fetch, checkRange_error .fetch two_ne_zero (by omega)]
  rfl

/-- A fetched word that the decoder rejects runs as an unknown instruction. -/
theorem cpuStep_of_rejected {s : State} {op : Word} {e : DecodeError} (hop : OpcodeAtPc s op)
    (he : decode op s.mode = .error e) : cpuStep s = unknownInstruction op s := by
  rw [cpuStep, fetch_of_opcodeAtPc hop, orRaise_ok, runWord, he]

/-- Settles O14: the higher of `pc` and the size of memory is the first address out of range. -/
theorem fetchBeyondMemoryFaults : Obligations.FetchBeyondMemoryFaults := by
  intro s hturn h
  have hfirst : max s.pc.toNat s.cfg.memorySize =
      if s.cfg.memorySize ≤ s.pc.toNat then s.pc.toNat else s.pc.toNat + 1 := by
    split <;> omega
  have hfetch : fetch s.popAgenda = .error (.outOfRange (max s.pc.toNat s.cfg.memorySize) .fetch) := fetch_beyondMemory h
  rw [step_of_cpuTurn hturn, cpuStep, hfetch, orRaise_error, hfirst]
  rfl

/-- Settles O15: the step runs the rejected word as an unknown instruction, which the policy decides. -/
theorem unknownWordFollowsPolicy : Obligations.UnknownWordFollowsPolicy := by
  intro s op e hturn hop he
  have hstep : step s = unknownInstruction op s.popAgenda :=
    (step_of_cpuTurn hturn).trans (cpuStep_of_rejected hop he)
  rw [hstep, unknownInstruction_eq, State.popAgenda_cfg]
  exact ⟨fun hhalt => by rw [if_pos hhalt]; rfl, fun hskip => by rw [hskip, if_neg (by decide)]; rfl⟩

end Sys2Proof.Machine
end

section
/-! SUPPORT. The family of 41_control_transfer.md: SYS under each policy (R121, R266), the jumps (R123, R125), and a CALL with
the RET that ends it (R127). -/

namespace Sys2Proof.Machine

/-! ### SYS (R121) -/

theorem toNat_encode_sys (nnn : Addr12) : (encode (.sys nnn)).toNat = nnn.toNat := by
  have hword : (encode (.sys nnn)).toNat = 0 * 4096 + nnn.toNat := toNat_wordNNN 0 nnn
  omega

theorem exec_sys (nnn : Addr12) (s : State) : exec (.sys nnn) s = unknownInstruction (encode (.sys nnn)) s := rfl

theorem unknownInstruction_of_halt {s : State} (h : s.cfg.unknownOpcodePolicy = .halt) (op : Word) :
    unknownInstruction op s = .next (s.faulted (.unknownInstruction s.pc op)) := by
  rw [unknownInstruction_eq, if_pos h]

theorem unknownInstruction_of_skip {s : State} (h : s.cfg.unknownOpcodePolicy = .skip) (op : Word) :
    unknownInstruction op s = .next s.advance := by
  rw [unknownInstruction_eq, h, if_neg (by decide)]

/-! ### The jumps (R123, R125) -/

theorem exec_jp (nnn : Addr12) (s : State) : exec (.jp nnn) s = .next (s.jumpTo (zext16 nnn)) := rfl

theorem exec_jpV0 (nnn : Addr12) (s : State) :
    exec (.jpV0 nnn) s = .next (s.jumpTo (zext16 nnn + (s.reg 0).setWidth 16)) := rfl

/-- The target of JP V0 is at most 0xFFF + 0xFF, so its sum does not wrap. -/
theorem toNat_zext16_add_byte (nnn : Addr12) (b : Byte) : (zext16 nnn + b.setWidth 16).toNat = nnn.toNat + b.toNat := by
  have hb : (b.setWidth 16).toNat = b.toNat := BitVec.toNat_setWidth_of_le (by decide)
  have hnowrap : nnn.toNat + b.toNat < 2 ^ 16 := by omega
  rw [BitVec.toNat_add, toNat_zext16, hb, Nat.mod_eq_of_lt hnowrap]

/-! ### The obligations of the family -/

/-- Settles O22: the CALL had room, so the stack it left has its own address on top, which RET pops. -/
theorem callReturnPair : Obligations.CallReturnPair := by
  intro s t u nnn hroom hcall hstack
  rw [exec_call_of_room hroom.ne nnn] at hcall
  cases hcall
  exact ⟨_, exec_ret_of_cons hstack, rfl⟩

/-- Settles O18: SYS is an unknown instruction, whose word is `0nnn`, and the policy decides what it does. -/
theorem sysIsUnknownInstruction : Obligations.SysIsUnknownInstruction :=
  fun s nnn =>
    ⟨fun hhalt => ⟨encode (.sys nnn), toNat_encode_sys nnn, (exec_sys nnn s).trans (unknownInstruction_of_halt hhalt _)⟩,
      fun hskip => (exec_sys nnn s).trans (unknownInstruction_of_skip hskip _)⟩

/-- Settles O19: each jump sets `pc` to its target, whose value is the sum in the integers. -/
theorem jumpsSetPc : Obligations.JumpsSetPc :=
  fun s nnn => ⟨⟨_, exec_jp nnn s, rfl, toNat_zext16 nnn⟩, ⟨_, exec_jpV0 nnn s, rfl, toNat_zext16_add_byte nnn (s.reg 0)⟩⟩

end Sys2Proof.Machine
end

section
/-! SUPPORT. The family of 42_arithmetic.md: the flags and the stored bytes as numbers (R147 to R152, R157), the shift source of
each mode (R155), and what each register holds after a result, or a result and its flag, were written (R153, R156). -/

namespace Sys2Proof.Machine

/-! ### Flags as numbers (R147 to R151, R157) -/

theorem toNat_flagByte (c : Bool) : (flagByte c).toNat = c.toNat := by
  cases c <;> rfl

theorem toNat_flagByte_decide (p : Prop) [Decidable p] : (flagByte (decide p)).toNat = if p then 1 else 0 := by
  rw [toNat_flagByte, Bool.toNat, Bool.cond_decide]

theorem toNat_flagByte_carryOut (a b : Byte) :
    (flagByte (carryOut a b)).toNat = if a.toNat + b.toNat > 0xFF then 1 else 0 :=
  toNat_flagByte_decide _

theorem toNat_flagByte_notBorrow (a b : Byte) :
    (flagByte (notBorrow a b)).toNat = if a.toNat ≥ b.toNat then 1 else 0 :=
  toNat_flagByte_decide _

theorem toNat_flagByte_shiftedOutRight (src : Byte) : (flagByte (shiftedOutRight src)).toNat = src.toNat % 2 := by
  rw [toNat_flagByte, shiftedOutRight, BitVec.getLsbD, Nat.toNat_testBit, pow_zero, Nat.div_one]

theorem toNat_flagByte_shiftedOutLeft (src : Byte) : (flagByte (shiftedOutLeft src)).toNat = src.toNat / 128 := by
  have hbit : src.toNat / 128 < 2 := by omega
  rw [toNat_flagByte, shiftedOutLeft, BitVec.getLsbD, Nat.toNat_testBit]
  exact Nat.mod_eq_of_lt hbit

/-! ### Stored bytes as numbers (R148 to R152) -/

/-- The stored difference is the difference in the integers, modulo 2^8. -/
theorem toNat_sub_eq_emod (a b : Byte) : ((a - b).toNat : Int) = (a.toNat - b.toNat : Int) % 256 := by
  rw [BitVec.toNat_sub]
  omega

theorem toNat_shiftRight_one (b : Byte) : (b >>> 1).toNat = b.toNat / 2 := by
  rw [BitVec.toNat_ushiftRight, Nat.shiftRight_one]

theorem toNat_shiftLeft_one (b : Byte) : (b <<< 1).toNat = b.toNat * 2 % 256 := by
  rw [BitVec.toNat_shiftLeft, Nat.shiftLeft_eq, pow_one]

/-! ### The shift source (R155) -/

/-- Only CHIP_8 leaves the feature off that takes the source from `V[x]`. -/
theorem State.shiftSource_eq (s : State) (x y : Idx) :
    s.shiftSource x y = if s.cfg.systemMode = .chip8 then s.reg y else s.reg x := by
  rw [shiftSource]
  cases h : s.cfg.systemMode <;> simp [isEnabled, modeFeatures, h]

/-! ### Registers after a write, as numbers and bit by bit (R153, R156) -/

theorem State.toNat_reg_setReg (x : Idx) (b : Byte) (s : State) (j : Idx) :
    ((s.setReg x b).reg j).toNat = if j = x then b.toNat else (s.reg j).toNat := by
  rw [reg_setReg, apply_ite BitVec.toNat]

theorem State.getLsbD_reg_setReg (x : Idx) (b : Byte) (s : State) (j : Idx) (k : Nat) :
    ((s.setReg x b).reg j).getLsbD k = if j = x then b.getLsbD k else (s.reg j).getLsbD k := by
  rw [reg_setReg, apply_ite (BitVec.getLsbD · k)]

theorem State.toNat_reg_setResultAndFlag (x : Idx) (r : Byte) (c : Bool) (s : State) (j : Idx) :
    ((s.setResultAndFlag x r c).reg j).toNat =
      if j = 15 then (flagByte c).toNat else if j = x then r.toNat else (s.reg j).toNat := by
  rw [reg_setResultAndFlag, apply_ite BitVec.toNat, apply_ite BitVec.toNat, flagReg]

/-- A difference written with its not-borrow: what SUB and SUBN share. -/
theorem State.toNat_reg_setDifference (x : Idx) (a b : Byte) (s : State) (j : Idx) :
    (((s.setResultAndFlag x (a - b) (notBorrow a b)).reg j).toNat : Int) =
      if j = 15 then (if a.toNat ≥ b.toNat then 1 else 0)
      else if j = x then (a.toNat - b.toNat : Int) % 256
      else (s.reg j).toNat := by
  rw [toNat_reg_setResultAndFlag, toNat_flagByte_notBorrow]
  push_cast [toNat_sub_eq_emod]
  rfl

/-! ### The obligations of the family -/

/-- Settles O26: the sum is written with its carry. -/
theorem addWithCarry : Obligations.AddWithCarry := by
  intro s x y
  refine ⟨(s.setResultAndFlag x (s.reg x + s.reg y) (carryOut (s.reg x) (s.reg y))).advance, rfl, rfl, fun j => ?_⟩
  rw [State.advance_reg, State.toNat_reg_setResultAndFlag, toNat_flagByte_carryOut, BitVec.toNat_add]

/-- Settles O27: each difference is written with its not-borrow. -/
theorem subtractWithNotBorrow : Obligations.SubtractWithNotBorrow :=
  fun s x y =>
    ⟨⟨_, rfl, rfl, State.toNat_reg_setDifference x (s.reg x) (s.reg y) s⟩,
      ⟨_, rfl, rfl, State.toNat_reg_setDifference x (s.reg y) (s.reg x) s⟩⟩

/-- Settles O28: the source of the mode is written shifted, with the bit that it lost. -/
theorem shiftsByMode : Obligations.ShiftsByMode := by
  intro s x y src hsrc
  have hsource : (s.shiftSource x y).toNat = src := by
    rw [hsrc, State.shiftSource_eq, apply_ite BitVec.toNat]
  refine ⟨⟨_, rfl, rfl, fun j => ?_⟩, ⟨_, rfl, rfl, fun j => ?_⟩⟩
  · rw [State.advance_reg, State.toNat_reg_setResultAndFlag, toNat_flagByte_shiftedOutRight, toNat_shiftRight_one, hsource]
  · rw [State.advance_reg, State.toNat_reg_setResultAndFlag, toNat_flagByte_shiftedOutLeft, toNat_shiftLeft_one, hsource]

/-- Settles O24: each is a write of `V[x]` alone, the sum of ADD modulo 2^8. -/
theorem loadsAndImmediateAdd : Obligations.LoadsAndImmediateAdd := by
  intro s x y kk
  refine ⟨⟨_, rfl, rfl, State.reg_setReg x kk s⟩, ⟨_, rfl, rfl, fun j => ?_⟩, ⟨_, rfl, rfl, State.reg_setReg x (s.reg y) s⟩⟩
  rw [State.advance_reg, State.toNat_reg_setReg, BitVec.toNat_add]

/-- Settles O25: each is a write of `V[x]` alone, whose bits are those of the bitwise operation. -/
theorem logicBitByBit : Obligations.LogicBitByBit := by
  intro s x y
  refine ⟨⟨_, rfl, rfl, fun j b => ?_⟩, ⟨_, rfl, rfl, fun j b => ?_⟩, ⟨_, rfl, rfl, fun j b => ?_⟩⟩
  · rw [State.advance_reg, State.getLsbD_reg_setReg, BitVec.getLsbD_or]
  · rw [State.advance_reg, State.getLsbD_reg_setReg, BitVec.getLsbD_and]
  · rw [State.advance_reg, State.getLsbD_reg_setReg, BitVec.getLsbD_xor]

/-- Settles O29: the byte of this draw is written masked, and a bit that `kk` lacks is 0 under the mask. -/
theorem randomByteIsMasked : Obligations.RandomByteIsMasked := by
  intro s x kk
  have hreg : ∀ j, (s.setRandom x kk (Config.randomByte s.draws)).reg j =
      if j = x then Config.randomByte s.draws &&& kk else s.reg j := State.reg_setReg x _ s
  refine ⟨_, Config.randomByte s.draws, rfl, rfl, hreg, fun b hb => ?_⟩
  rw [hreg x, if_pos rfl, BitVec.getLsbD_and, hb, Bool.and_false]

end Sys2Proof.Machine
end

section
/-! SUPPORT. The family of 43_skips.md: the skip law on a tested condition and on its negation (R171), and the key that a
register names (R178). -/

namespace Sys2Proof.Machine

/-! ### The skip law (R171) -/

theorem State.skipIf_eq (c : Bool) (s : State) : s.skipIf c = { s with pc := if c = true then s.pc + 4 else s.pc + 2 } := rfl

theorem State.skipIf_not (c : Bool) (s : State) : s.skipIf (!c) = { s with pc := if c = true then s.pc + 2 else s.pc + 4 } := by
  cases c <;> rfl

/-- A skip on equality compares the bytes as numbers. -/
theorem State.skipIf_byte_eq (a b : Byte) (s : State) :
    s.skipIf (decide (a = b)) = { s with pc := if a.toNat = b.toNat then s.pc + 4 else s.pc + 2 } := by
  simp only [skipIf_eq, decide_eq_true_eq, BitVec.toNat_inj]

/-- A skip on inequality is a skip on the negation of equality. -/
theorem State.skipIf_byte_ne (a b : Byte) (s : State) :
    s.skipIf (decide (a ≠ b)) = { s with pc := if a.toNat = b.toNat then s.pc + 2 else s.pc + 4 } := by
  simp only [decide_not, skipIf_not, decide_eq_true_eq, BitVec.toNat_inj]

/-! ### The key that a register names (R176 to R178) -/

theorem keyNamedBy_of_key {b : Byte} {k : Idx} (h : b.toNat = k.val) (s : State) : keyNamedBy b s = .ok s.key[k] := by
  simp only [keyNamedBy, h]
  exact dif_pos k.isLt

theorem keyNamedBy_of_beyond {b : Byte} (h : 0xF < b.toNat) (s : State) :
    keyNamedBy b s = .error (.outOfRange b.toNat .keyTest) :=
  dif_neg (by omega)

theorem exec_skp_of_key {s : State} {x k : Idx} (h : (s.reg x).toNat = k.val) :
    exec (.skp x) s = .next (s.skipIf s.key[k]) := by
  rw [exec, execSkp, keyNamedBy_of_key h, orRaise_ok]

theorem exec_sknp_of_key {s : State} {x k : Idx} (h : (s.reg x).toNat = k.val) :
    exec (.sknp x) s = .next (s.skipIf !s.key[k]) := by
  rw [exec, execSknp, keyNamedBy_of_key h, orRaise_ok]

theorem exec_skp_of_beyond {s : State} {x : Idx} (h : 0xF < (s.reg x).toNat) :
    exec (.skp x) s = .next (s.faulted (.outOfRange (s.reg x).toNat .keyTest)) := by
  rw [exec, execSkp, keyNamedBy_of_beyond h, orRaise_error]

theorem exec_sknp_of_beyond {s : State} {x : Idx} (h : 0xF < (s.reg x).toNat) :
    exec (.sknp x) s = .next (s.faulted (.outOfRange (s.reg x).toNat .keyTest)) := by
  rw [exec, execSknp, keyNamedBy_of_beyond h, orRaise_error]

/-! ### The obligations of the family -/

/-- Settles O30: each comparison is a skip on the equality, or the inequality, of its two bytes. -/
theorem compareSkips : Obligations.CompareSkips :=
  fun s x y kk =>
    ⟨congrArg Host.Outcome.next (State.skipIf_byte_eq (s.reg x) kk s),
      congrArg Host.Outcome.next (State.skipIf_byte_ne (s.reg x) kk s),
      congrArg Host.Outcome.next (State.skipIf_byte_eq (s.reg x) (s.reg y) s),
      congrArg Host.Outcome.next (State.skipIf_byte_ne (s.reg x) (s.reg y) s)⟩

/-- Settles O31: an index up to 15 names a key, whose state or its negation the skip tests; a higher one faults. -/
theorem keySkips : Obligations.KeySkips := by
  refine fun s x => ⟨fun k hkey => ⟨?_, ?_⟩, fun hbeyond i hi => ?_⟩
  · rw [exec_skp_of_key hkey, State.skipIf_eq]
  · rw [exec_sknp_of_key hkey, State.skipIf_not]
  · obtain rfl | rfl : i = .skp x ∨ i = .sknp x := by simpa using hi
    · exact exec_skp_of_beyond hbeyond
    · exact exec_sknp_of_beyond hbeyond

end Sys2Proof.Machine
end

section
/-! SUPPORT. The family of 44_display.md: CLS (R192), how often a sprite reaches a pixel and what drawing it does to the grid
(R193 to R198), DRW without and with a fault (R200 to R202), a sprite drawn twice (R203), and the display loop's step (R204,
R283). -/

namespace Sys2Proof.Machine

/-! ### How often a sprite reaches a pixel (R194 to R197) -/

/-- Bit `7 - k` of a sprite row `b`, drawn at column `x0` and at row `y` counted on below the bottom edge, stands for the pixel
at row `py`, column `px`: the condition that `spriteHits` counts. -/
abbrev BitReaches (cfg : Config) (x0 y : Nat) (b : Byte) (py px k : Nat) : Prop :=
  b.getLsbD (7 - k) = true ∧ (cfg.verticalEdge = .wrap ∨ y < cfg.displayHeight) ∧
    y % cfg.displayHeight = py ∧ (x0 + k) % cfg.displayWidth = px

/-- The hits of a sprite, row by row. -/
theorem spriteHits_eq_sum (cfg : Config) (x0 y0 n : Nat) (rows : Nat → Byte) (py px : Nat) :
    spriteHits cfg x0 y0 n rows py px =
      ∑ r ∈ Finset.range n, Nat.count (BitReaches cfg x0 (y0 + r) (rows r) py px) 8 := by
  simp only [spriteHits, Finset.card_filter, Finset.sum_product, Nat.count_eq_card_filter_range]

/-- The first row apart, the rest of a sprite is a sprite drawn one row lower. -/
theorem spriteHits_succ (cfg : Config) (x0 y0 n : Nat) (rows : Nat → Byte) (py px : Nat) :
    spriteHits cfg x0 y0 (n + 1) rows py px =
      Nat.count (BitReaches cfg x0 y0 (rows 0) py px) 8 + spriteHits cfg x0 (y0 + 1) n (fun r => rows (r + 1)) py px := by
  simp only [spriteHits_eq_sum, Finset.sum_range_succ', Nat.add_zero, Nat.add_comm, Nat.add_left_comm]

theorem spriteHits_congr {n : Nat} {rows rows' : Nat → Byte} (h : ∀ r, r < n → rows r = rows' r) (cfg : Config)
    (x0 y0 py px : Nat) : spriteHits cfg x0 y0 n rows py px = spriteHits cfg x0 y0 n rows' py px := by
  rw [spriteHits_eq_sum, spriteHits_eq_sum]
  exact Finset.sum_congr rfl fun r hr => by rw [h r (Finset.mem_range.1 hr)]

theorem spriteHits_pos_iff {cfg : Config} {x0 y0 n : Nat} {rows : Nat → Byte} {py px : Nat} :
    0 < spriteHits cfg x0 y0 n rows py px ↔ ∃ r k, r < n ∧ k < 8 ∧ BitReaches cfg x0 (y0 + r) (rows r) py px k := by
  simp [spriteHits, Finset.card_pos, Finset.Nonempty, BitReaches, and_assoc]

/-- Where no two rows land on one display row, a drawn row's number is below the height of the grid. -/
theorem lt_height_of_drawn {cfg : Config} {n y0 r : Nat} (hn : n ≤ cfg.displayHeight ∨ cfg.verticalEdge = .clip)
    (hr : r < n) (hedge : cfg.verticalEdge = .wrap ∨ y0 + r < cfg.displayHeight) : r < cfg.displayHeight := by
  obtain hle | hclip := hn
  · omega
  · have := hedge.resolve_left (by rw [hclip]; decide)
    omega

/-- Some pixel of the grid is reached exactly if a drawn row has a 1 bit. -/
theorem exists_spriteHits_pos_iff {cfg : Config} {n y0 : Nat} (hw : 8 ≤ cfg.displayWidth)
    (hn : n ≤ cfg.displayHeight ∨ cfg.verticalEdge = .clip) (x0 : Nat) (rows : Nat → Byte) :
    (∃ py px, py < cfg.displayHeight ∧ px < cfg.displayWidth ∧ 0 < spriteHits cfg x0 y0 n rows py px) ↔
      ∃ r k, r < n ∧ k < 8 ∧ (rows r).getLsbD k = true ∧
        (cfg.verticalEdge = .wrap ∨ y0 + r < cfg.displayHeight) := by
  simp only [spriteHits_pos_iff]
  constructor
  · rintro ⟨_, _, -, -, r, k, hr, -, hbit, hedge, -, -⟩
    exact ⟨r, 7 - k, hr, by omega, hbit, hedge⟩
  · rintro ⟨r, k, hr, hk, hbit, hedge⟩
    have hh : 0 < cfg.displayHeight := Nat.zero_lt_of_lt (lt_height_of_drawn hn hr hedge)
    have hbit' : (rows r).getLsbD (7 - (7 - k)) = true := by rwa [Nat.sub_sub_self (by omega)]
    exact ⟨_, _, Nat.mod_lt _ hh, Nat.mod_lt _ (by omega), r, 7 - k, hr, by omega, hbit', hedge, rfl, rfl⟩

/-- Where a row has no two bits for one column and no two rows have one display row, no pixel is reached twice. -/
theorem spriteHits_le_one {cfg : Config} {n : Nat} (hw : 8 ≤ cfg.displayWidth)
    (hn : n ≤ cfg.displayHeight ∨ cfg.verticalEdge = .clip) (x0 y0 : Nat) (rows : Nat → Byte) (py px : Nat) :
    spriteHits cfg x0 y0 n rows py px ≤ 1 := by
  refine Finset.card_le_one.2 fun p hp q hq => ?_
  simp only [Finset.mem_filter, Finset.mem_product, Finset.mem_range] at hp hq
  obtain ⟨⟨hpr, hpk⟩, -, hpe, hpy, hpx⟩ := hp
  obtain ⟨⟨hqr, hqk⟩, -, hqe, hqy, hqx⟩ := hq
  have hcol : p.2 ≡ q.2 [MOD cfg.displayWidth] := Nat.ModEq.add_left_cancel' x0 (hpx.trans hqx.symm)
  have hrow : p.1 ≡ q.1 [MOD cfg.displayHeight] := Nat.ModEq.add_left_cancel' y0 (hpy.trans hqy.symm)
  exact Prod.ext (hrow.eq_of_lt_of_lt (lt_height_of_drawn hn hpr hpe) (lt_height_of_drawn hn hqr hqe))
    (hcol.eq_of_lt_of_lt (by omega) (by omega))

/-! ### What drawing a sprite does to the grid (R193 to R198) -/

/-- The drawn coordinates of one sprite row list a pixel as often as its bits reach it. -/
theorem count_rowCoords (cfg : Config) (x0 y : Nat) (b : Byte) (py px : Nat) :
    (if cfg.verticalEdge = .clip ∧ y ≥ cfg.displayHeight then []
      else (rowColumns cfg.displayWidth x0 b).map fun c => (y % cfg.displayHeight, c)).count (py, px) =
      Nat.count (BitReaches cfg x0 y b py px) 8 := by
  rw [Nat.count]
  split
  · next hcut =>
    refine (List.countP_eq_zero.2 fun k _ hk => ?_).symm
    obtain ⟨-, hedge, -⟩ := of_decide_eq_true hk
    rw [hcut.1] at hedge
    exact absurd (hedge.resolve_left (by decide)) (Nat.not_lt.2 hcut.2)
  · next hdrawn =>
    have hedge : cfg.verticalEdge = .wrap ∨ y < cfg.displayHeight := by
      cases h : cfg.verticalEdge
      · exact .inl rfl
      · exact .inr (Nat.lt_of_not_le fun hle => hdrawn ⟨h, hle⟩)
    rw [rowColumns, List.map_map, List.count, List.countP_map, List.countP_filter]
    refine List.countP_congr fun k _ => ?_
    simp [hedge, and_comm]

/-- A sprite's coordinates list a pixel as often as the sprite reaches it. -/
theorem count_spriteCoords (cfg : Config) (x0 y0 r : Nat) (rows : List Byte) (py px : Nat) :
    (spriteCoords cfg x0 y0 r rows).count (py, px) =
      spriteHits cfg x0 (y0 + r) rows.length (fun k => rows.getD k 0) py px := by
  induction rows generalizing r with
  | nil => rfl
  | cons b bs ih =>
    rw [spriteCoords, List.count_append, count_rowCoords, ih, List.length_cons, spriteHits_succ]
    rfl

/-- A sprite lists pixels of the grid only, where there are any. -/
theorem spriteCoords_inGrid {cfg : Config} (hh : 0 < cfg.displayHeight) (hw : 0 < cfg.displayWidth) {x0 y0 r : Nat}
    {rows : List Byte} {p : Nat × Nat} (hp : p ∈ spriteCoords cfg x0 y0 r rows) :
    p.1 < cfg.displayHeight ∧ p.2 < cfg.displayWidth := by
  have hhits := List.count_pos_iff.2 hp
  rw [count_spriteCoords, spriteHits_pos_iff] at hhits
  obtain ⟨_, _, -, -, -, -, hy, hx⟩ := hhits
  exact ⟨hy ▸ Nat.mod_lt _ hh, hx ▸ Nat.mod_lt _ hw⟩

/-- On a grid without pixels nothing lit turns dark (log entry 14). -/
theorem flipAll_hit_of_noPixels {h w : Nat} {fb : Framebuffer} (hs : FbShape h w fb) (hz : h = 0 ∨ w = 0)
    (ps : List (Nat × Nat)) : (flipAll ps fb).2 = false := by
  induction ps generalizing fb with
  | nil => rfl
  | cons p ps ih =>
    have hdark : getPixel fb p.1 p.2 = false := getPixel_outside hs (by omega)
    rw [flipAll, hdark, ih (fbShape_togglePixel hs p.1 p.2)]
    rfl

section
variable {cfg : Config} {fb : Framebuffer} {vx vy : Byte} {rows : List Byte} {hits : Nat → Nat → Nat}
  (hhits : hits = spriteHits cfg (vx.toNat % cfg.displayWidth) (vy.toNat % cfg.displayHeight) rows.length
    fun k => rows.getD k 0)
include hhits

theorem count_spriteCoords_zero (py px : Nat) :
    (spriteCoords cfg (vx.toNat % cfg.displayWidth) (vy.toNat % cfg.displayHeight) 0 rows).count (py, px) = hits py px := by
  rw [count_spriteCoords, hhits, Nat.add_zero]

variable (hs : FbShape cfg.displayHeight cfg.displayWidth fb)
include hs

/-- A pixel flips exactly if the sprite reaches it an odd number of times. -/
theorem getPixel_drawSprite {py px : Nat} (hy : py < cfg.displayHeight) (hx : px < cfg.displayWidth) :
    getPixel (drawSprite cfg vx vy rows fb).1 py px = (getPixel fb py px != decide (hits py px % 2 = 1)) := by
  rw [drawSprite_eq_flipAll,
    getPixel_flipAll hs fun _ => spriteCoords_inGrid (Nat.zero_lt_of_lt hy) (Nat.zero_lt_of_lt hx),
    count_spriteCoords_zero hhits, Bool.bne_eq_xor]

/-- A lit pixel turns dark exactly if the sprite reaches a lit pixel, or a dark one twice. -/
theorem drawSprite_hit_iff :
    (drawSprite cfg vx vy rows fb).2 = true ↔ ∃ py px, py < cfg.displayHeight ∧ px < cfg.displayWidth ∧
      ((getPixel fb py px = true ∧ 1 ≤ hits py px) ∨ (getPixel fb py px = false ∧ 2 ≤ hits py px)) := by
  rw [drawSprite_eq_flipAll]
  by_cases hz : cfg.displayHeight = 0 ∨ cfg.displayWidth = 0
  · rw [flipAll_hit_of_noPixels hs hz]
    refine iff_of_false Bool.false_ne_true fun ⟨py, px, hy, hx, _⟩ => ?_
    omega
  · have hin : ∀ p ∈ spriteCoords cfg (vx.toNat % cfg.displayWidth) (vy.toNat % cfg.displayHeight) 0 rows,
        p.1 < cfg.displayHeight ∧ p.2 < cfg.displayWidth := fun _ => spriteCoords_inGrid (by omega) (by omega)
    rw [flipAll_hit hs hin]
    constructor
    · rintro ⟨⟨py, px⟩, hq⟩
      obtain ⟨hy, hx⟩ : py < cfg.displayHeight ∧ px < cfg.displayWidth :=
        hin (py, px) (List.count_pos_iff.1 (by omega))
      exact ⟨py, px, hy, hx, by simpa only [count_spriteCoords_zero hhits] using hq⟩
    · rintro ⟨py, px, -, -, hq⟩
      exact ⟨(py, px), by simpa only [count_spriteCoords_zero hhits] using hq⟩

end

/-- Two properties that agree on the pixels of a grid hold of some pixel alike. -/
theorem exists_pixel_congr {h w : Nat} {P Q : Nat → Nat → Prop}
    (hpq : ∀ py px, py < h → px < w → (P py px ↔ Q py px)) :
    (∃ py px, py < h ∧ px < w ∧ P py px) ↔ ∃ py px, py < h ∧ px < w ∧ Q py px :=
  exists_congr fun py => exists_congr fun px => and_congr_right fun hy => and_congr_right (hpq py px hy)

section
variable {before after : Bool} {hits : Nat} (hle : hits ≤ 1) (hflip : after = (before != decide (hits % 2 = 1)))
include hle hflip

/-- A pixel that a sprite reaches at most once is darkened by the second draw exactly if the first one lit it. -/
theorem redraw_collides_iff : (after = true ∧ 1 ≤ hits) ∨ (after = false ∧ 2 ≤ hits) ↔ before = false ∧ after = true := by
  subst hflip
  obtain rfl | rfl : hits = 0 ∨ hits = 1 := by omega
  · cases before <;> decide
  · cases before <;> decide

/-- A dark pixel is lit exactly if the sprite reaches it. -/
theorem lit_of_dark_iff (hdark : before = false) : before = false ∧ after = true ↔ 0 < hits := by
  subst hflip hdark
  obtain rfl | rfl : hits = 0 ∨ hits = 1 := by omega
  · decide
  · decide

end

/-! ### DRW without and with a fault (R200 to R202) -/

theorem exec_drw_of_inRange {s : State} {n : Idx} (hn : ¬(n = 0 ∧ s.cfg.systemMode = .superChip))
    (hr : n.val = 0 ∨ s.i.toNat + n.val ≤ s.cfg.memorySize) (x y : Idx) :
    exec (.drw x y n) s =
      .next (s.withSprite x y (s.bytesAt s.i.toNat n.val)).consumeCollision.advance := by
  have hread : readBlock (s.effectiveAddress 0) n.val s = .ok (s.bytesAt s.i.toNat n.val) := readBlock_ok hr
  exact (if_neg hn).trans (by rw [hread, orRaise_ok])

/-- How often the sprite that DRW draws at `s` reaches each pixel. -/
def State.drwHits (s : State) (x y n : Idx) : Nat → Nat → Nat :=
  spriteHits s.cfg ((s.reg x).toNat % s.cfg.displayWidth) ((s.reg y).toNat % s.cfg.displayHeight) n.val
    fun r => s.byteAt (s.i.toNat + r)

theorem State.drwHits_congr {s t : State} {x y : Idx} (hi : t.i = s.i) (hm : t.mem = s.mem) (hc : t.cfg = s.cfg)
    (hx : t.reg x = s.reg x) (hy : t.reg y = s.reg y) (n : Idx) : t.drwHits x y n = s.drwHits x y n := by
  have hb : ∀ a, t.byteAt a = s.byteAt a := State.byteAt_congr hm hc
  simp only [drwHits, hi, hc, hx, hy, hb]

/-- A sprite of no rows draws nothing, and the flag that it consumes is the one that stood. -/
theorem State.consumeCollision_withSprite_nil {s : State} (hc : s.collision = false) (x y : Idx) :
    (s.withSprite x y []).consumeCollision = s.setReg flagReg 0 := by
  cases s
  cases hc
  rfl

theorem exec_drw_zero_superChip {s : State} (h : s.cfg.systemMode = .superChip) (x y : Idx) :
    exec (.drw x y 0) s = unknownInstruction (encode (.drw x y 0)) s :=
  if_pos ⟨rfl, h⟩

theorem flagByte_eq_one_iff {c : Bool} : flagByte c = 1 ↔ c = true := by
  cases c <;> decide

theorem flagByte_eq_zero_or_one (c : Bool) : flagByte c = 0 ∨ flagByte c = 1 := by
  cases c <;> decide

/-! ### The step of the display loop (R204, R283) -/

theorem step_of_turnOf {a : AgentStep} {s : State} (h : TurnOf a s) : step s = agentStep a s.popAgenda := by
  obtain ⟨hlegal, hrunning, rfl⟩ := h
  exact step_of_running hlegal hrunning

/-! ### The obligations of the family -/

/-- Settles O33: the sprite's bytes are read in range, the grid is drawn on as a whole, and VF takes the collision flag. -/
theorem drwDrawsTheSprite : Obligations.DrwDrawsTheSprite := by
  intro s x y n hfb hn hr hits hhits
  have hrows : hits = spriteHits s.cfg ((s.reg x).toNat % s.cfg.displayWidth) ((s.reg y).toNat % s.cfg.displayHeight)
      (s.bytesAt s.i.toNat n.val).length fun k => (s.bytesAt s.i.toNat n.val).getD k 0 := by
    rw [hhits, State.length_bytesAt]
    funext py px
    exact spriteHits_congr (fun r hlt => (State.getD_bytesAt s s.i.toNat n.val r hlt).symm) ..
  have hflag : (s.withSprite x y (s.bytesAt s.i.toNat n.val)).consumeCollision.advance.reg 15 =
      flagByte (s.withSprite x y (s.bytesAt s.i.toNat n.val)).collision :=
    (State.reg_consumeCollision _ 15).trans (if_pos rfl)
  refine ⟨_, exec_drw_of_inRange hn hr x y, rfl, fbShape_drawSprite hfb .., fun py px => getPixel_drawSprite hrows hfb,
    fun j hj => (State.reg_consumeCollision _ j).trans (if_neg hj), ?_, ?_⟩
  · rw [hflag]
    exact flagByte_eq_zero_or_one _
  · rw [hflag, flagByte_eq_one_iff, State.withSprite_collision, Bool.or_eq_true, drawSprite_hit_iff hrows hfb]

/-- Settles O36: both draws are `drwDrawsTheSprite`, with the same hits; two flips of a pixel cancel, and where no pixel is hit
twice the second draw collides where the first one lit. -/
theorem drawTwiceRestoresPixels : Obligations.DrawTwiceRestoresPixels := by
  intro s t x y n hfb hn hr hexec hx hy
  obtain ⟨_, hexec', hframe, htfb, htpix, -, -, -⟩ := drwDrawsTheSprite s x y n hfb hn hr (s.drwHits x y n) rfl
  cases hexec.symm.trans hexec'
  obtain ⟨hi, hm, hc, hclear⟩ : t.i = s.i ∧ t.mem = s.mem ∧ t.cfg = s.cfg ∧ t.collision = false := by
    rw [hframe]; exact ⟨rfl, rfl, rfl, rfl⟩
  obtain ⟨u, hu, -, hufb, hupix, -, -, hflag⟩ := drwDrawsTheSprite t x y n htfb (by rwa [hc]) (by rwa [hi, hc]) _
    (State.drwHits_congr hi hm hc hx hy n).symm
  rw [FbSized, exec_cfg hu, hc] at hufb
  simp only [hc, hclear, Bool.false_eq_true, false_or] at hupix hflag
  refine ⟨u, hu, fb_ext hufb hfb fun py px hpy hpx => ?_, fun hw hrows => ?_⟩
  · rw [hupix py px hpy hpx, htpix py px hpy hpx, Bool.bne_assoc, bne_self_eq_false, Bool.bne_false]
  · have hle : ∀ py px, s.drwHits x y n py px ≤ 1 := spriteHits_le_one hw hrows _ _ _
    have hcollides : u.reg 15 = 1 ↔ ∃ py px, py < s.cfg.displayHeight ∧ px < s.cfg.displayWidth ∧
        getPixel s.fb py px = false ∧ getPixel t.fb py px = true :=
      hflag.trans (exists_pixel_congr fun py px hpy hpx => redraw_collides_iff (hle py px) (htpix py px hpy hpx))
    refine ⟨hcollides, fun hdark => hcollides.trans ?_⟩
    rw [← exists_spriteHits_pos_iff hw hrows]
    exact exists_pixel_congr fun py px hpy hpx => lit_of_dark_iff (hle py px) (htpix py px hpy hpx) (hdark py px)

/-- Settles O35: the sprite has a row, so its bytes are read, and the first address out of range is the one reported. -/
theorem drwFaultIsPrecise : Obligations.DrwFaultIsPrecise := by
  intro s x y n r hlt hr hlow
  have hn : ¬(n = 0 ∧ s.mode = .superChip) := fun h => by simp [h.1] at hlt
  have hread : readBlock (s.effectiveAddress 0) n.val s = .error (.outOfRange (s.i.toNat + r) .read) :=
    readBlock_error_of_lowestFailing hlt hr hlow
  rw [exec, execDrw, if_neg hn, hread, orRaise_error]
  rfl

/-- Settles O32: every row of the new grid is dark and has the configured width. -/
theorem clsDarkensDisplay : Obligations.ClsDarkensDisplay := by
  intro s
  obtain ⟨hheight, hwidth⟩ := fbShape_dark s.cfg
  refine ⟨_, rfl, rfl, hheight, fun row hrow => ⟨hwidth row hrow, fun p hp => ?_⟩⟩
  rw [List.eq_of_mem_replicate hrow] at hp
  exact List.eq_of_mem_replicate hp

/-- Settles O34: no row is drawn and VF takes the clear flag; in SUPER_CHIP the policy decides. -/
theorem drwOfZeroRows : Obligations.DrwOfZeroRows := by
  intro s x y hc
  refine ⟨fun hmode => ?_, fun hmode hskip => ?_, fun hmode hhalt => ⟨encode (.drw x y 0), ?_, ?_⟩⟩
  · refine ⟨(s.setReg flagReg 0).advance, ?_, rfl, State.reg_setReg flagReg 0 s⟩
    rw [exec_drw_of_inRange (fun h => hmode h.2) (.inl rfl), ← State.consumeCollision_withSprite_nil hc x y]
    rfl
  · exact (exec_drw_zero_superChip hmode x y).trans (unknownInstruction_of_skip hskip _)
  · have hword : (encode (.drw x y 0)).toNat = 13 * 4096 + x.val * 256 + y.val * 16 + 0 := toNat_wordXYN 0xD x y 0
    omega
  · exact (exec_drw_zero_superChip hmode x y).trans (unknownInstruction_of_halt hhalt _)

/-- Settles O48: the display loop's turn. -/
theorem displayStepOnlyReads : Obligations.DisplayStepOnlyReads :=
  fun _ h => step_of_turnOf h

end Sys2Proof.Machine
end

section
/-! SUPPORT. The family of 45_index_memory.md: the index register written (R221 to R223, R227), the bytes inside and outside
a written block (R66), the digits and the registers that a block carries (R224 to R226), and the instructions as one checked
transfer at `I` (R228). -/

namespace Sys2Proof.Machine

/-! ### The index register as a number (R222, R223, R227) -/

/-- `I` plus a byte, modulo 2^16. -/
theorem toNat_index_add_byte (i : Word) (b : Byte) : (i + b.setWidth 16).toNat = (i.toNat + b.toNat) % 65536 := by
  have hb : (b.setWidth 16).toNat = b.toNat := BitVec.toNat_setWidth_of_le (by decide)
  rw [BitVec.toNat_add, hb]

theorem toNat_fontAddress (cfg : Config) (b : Byte) :
    (fontAddress cfg b).toNat = (cfg.fontBaseAddress.toNat + 5 * (b.toNat % 16)) % 65536 := by
  rw [fontAddress, BitVec.toNat_add, BitVec.toNat_ofNat, Nat.add_mod_mod]

/-- Only SUPER_CHIP leaves the feature off that moves `I` past the block. -/
theorem State.toNat_indexAfterBlock (s : State) (x : Idx) :
    (s.indexAfterBlock x).toNat =
      if s.cfg.systemMode = .superChip then s.i.toNat else (s.i.toNat + x.val + 1) % 65536 := by
  have hmoved : (s.i + BitVec.ofNat 16 (x.val + 1)).toNat = (s.i.toNat + x.val + 1) % 65536 := by
    rw [BitVec.toNat_add, BitVec.toNat_ofNat, Nat.add_mod_mod, Nat.add_assoc]
  rw [indexAfterBlock]
  cases h : s.cfg.systemMode <;> simp [isEnabled, modeFeatures, h, hmoved]

/-! ### The bytes of a written block (R66) -/

section
variable {s : State} (h : s.MemWf) {a : Nat} {bs : List Byte} (ha : a + bs.length ≤ s.cfg.memorySize)
include h ha

theorem State.byteAt_putBytes_inside {k : Nat} (hk : k < bs.length) : (s.putBytes a bs).byteAt (a + k) = bs.getD k 0 := by
  rw [byteAt_putBytes h ha, if_pos (by omega), Nat.add_sub_cancel_left]

theorem State.byteAt_putBytes_outside {x : Nat} (hx : x < a ∨ a + bs.length ≤ x) :
    (s.putBytes a bs).byteAt x = s.byteAt x :=
  (byteAt_putBytes h ha x).trans (if_neg (by omega))

end

/-! ### What a block carries (R224, R225) -/

theorem length_bcdDigits (b : Byte) : (bcdDigits b).length = 3 := rfl

/-- Each digit is below 2^8, so the byte that stores it keeps its value. -/
theorem toNat_bcdDigits (b : Byte) :
    (bcdDigits b).map BitVec.toNat = [b.toNat / 100, b.toNat / 10 % 10, b.toNat % 10] := by
  have hhundreds : b.toNat / 100 % 256 = b.toNat / 100 := by omega
  have htens : b.toNat / 10 % 10 % 256 = b.toNat / 10 % 10 := by omega
  have hunits : b.toNat % 10 % 256 = b.toNat % 10 := by omega
  simp [bcdDigits, hhundreds, htens, hunits]

theorem State.length_regsUpTo (s : State) (x : Idx) : (s.regsUpTo x).length = x.val + 1 := by
  rw [regsUpTo, List.length_take, Vector.length_toList, Nat.min_eq_left x.isLt]

theorem State.lt_length_regsUpTo (s : State) {x : Idx} {r : Nat} (hr : r ≤ x.val) : r < (s.regsUpTo x).length := by
  rw [length_regsUpTo]
  exact Nat.lt_succ_of_le hr

theorem State.getD_regsUpTo (s : State) {x r : Idx} (hr : r ≤ x) : (s.regsUpTo x).getD r.val 0 = s.reg r := by
  rw [List.getD_eq_getElem _ _ (s.lt_length_regsUpTo hr)]
  simp only [regsUpTo, List.getElem_take, Vector.getElem_toList]
  rfl

/-! ### A block transfer is one checked transfer at `I` (R224 to R226, R228) -/

theorem exec_ldBVx (x : Idx) (s : State) :
    exec (.ldBVx x) s = orRaise s (writeBlock s.i.toNat (bcdDigits (s.reg x)) s) fun s' => .next s'.advance := rfl

theorem exec_storeRegs (x : Idx) (s : State) :
    exec (.storeRegs x) s = orRaise s (writeBlock s.i.toNat (s.regsUpTo x) s) fun s' =>
      .next { s' with i := s.indexAfterBlock x }.advance := rfl

theorem exec_loadRegs (x : Idx) (s : State) :
    exec (.loadRegs x) s = orRaise s (readBlock s.i.toNat (x.val + 1) s) fun bs =>
      .next { s.setRegs bs with i := s.indexAfterBlock x }.advance := rfl

/-! ### The obligations of the family -/

/-- Settles O38: the three digits are written as one block. -/
theorem bcdStoresDigits : Obligations.BcdStoresDigits := by
  intro s x hform hrange
  have hin : s.i.toNat + (bcdDigits (s.reg x)).length ≤ s.cfg.memorySize := hrange
  have hdigit : ∀ k < 3, ((s.putBytes s.i.toNat (bcdDigits (s.reg x))).byteAt (s.i.toNat + k)).toNat =
      [(s.reg x).toNat / 100, (s.reg x).toNat / 10 % 10, (s.reg x).toNat % 10].getD k 0 := by
    intro k hk
    rw [State.byteAt_putBytes_inside hform hin hk, ← toNat_bcdDigits]
    exact (List.getD_map _ 0 BitVec.toNat).symm
  refine ⟨(s.putBytes s.i.toNat (bcdDigits (s.reg x))).advance, ?_, rfl, hdigit 0 (by decide), hdigit 1 (by decide),
    hdigit 2 (by decide), fun a ha => State.byteAt_putBytes_outside hform hin ?_⟩
  · rw [exec_ldBVx, writeBlock_ok (.inr hin), orRaise_ok]
  · rw [length_bcdDigits]
    omega

/-- Settles O39: the registers are written as one block, and `I` is moved by the mode. -/
theorem storeRegistersAtIndex : Obligations.StoreRegistersAtIndex := by
  intro s x hform hrange
  have hlen := s.length_regsUpTo x
  have hin : s.i.toNat + (s.regsUpTo x).length ≤ s.cfg.memorySize := by omega
  refine ⟨{ s.putBytes s.i.toNat (s.regsUpTo x) with i := s.indexAfterBlock x }.advance, ?_, rfl, fun r hr => ?_,
    fun a ha => ?_, s.toNat_indexAfterBlock x⟩
  · rw [exec_storeRegs, writeBlock_ok (.inr hin), orRaise_ok]
  · exact (State.byteAt_putBytes_inside hform hin (s.lt_length_regsUpTo hr)).trans (s.getD_regsUpTo hr)
  · exact State.byteAt_putBytes_outside hform hin (by omega)

/-- Settles O40: the registers are written from the bytes read, and `I` is moved by the mode. -/
theorem loadRegistersFromIndex : Obligations.LoadRegistersFromIndex := by
  intro s x hrange
  refine ⟨{ s.setRegs (s.bytesAt s.i.toNat (x.val + 1)) with i := s.indexAfterBlock x }.advance, ?_, rfl, fun j => ?_,
    s.toNat_indexAfterBlock x⟩
  · rw [exec_loadRegs, readBlock_ok (.inr hrange), orRaise_ok]
  · refine (State.reg_setRegs _ s j).trans ?_
    rw [State.length_bytesAt]
    by_cases hj : j ≤ x
    · have hlt : j.val < x.val + 1 := Nat.lt_succ_of_le hj
      rw [if_pos hj, if_pos hlt, State.getD_bytesAt s _ _ _ hlt]
    · have hlt : ¬j.val < x.val + 1 := fun hlt => hj (Nat.le_of_lt_succ hlt)
      rw [if_neg hj, if_neg hlt]

/-- Settles O41: each transfer is checked as a whole before anything is written. -/
theorem blockFaultsArePrecise : Obligations.BlockFaultsArePrecise := by
  refine fun s x r hr hlow => ⟨fun hlt => ?_, fun hle => ?_, fun hle => ?_⟩
  · rw [exec_ldBVx, writeBlock_error_of_lowestFailing hlt hr hlow, orRaise_error]
    rfl
  · rw [exec_storeRegs, writeBlock_error_of_lowestFailing (s.lt_length_regsUpTo hle) hr hlow, orRaise_error]
    rfl
  · rw [exec_loadRegs, readBlock_error_of_lowestFailing (Nat.lt_succ_of_le hle) hr hlow, orRaise_error]
    rfl

/-- Settles O42: the load reads at `I + j` the byte that the store left there, which is `V[j]`. -/
theorem storeThenLoadRestoresRegisters : Obligations.StoreThenLoadRestoresRegisters := by
  intro s t u x hform hrange hstore hmem hcfg hi
  obtain ⟨_, hstore', -, hstored, -, -⟩ := storeRegistersAtIndex s x hform hrange
  cases hstore.symm.trans hstore'
  have hrange' : u.i.toNat + x.val < u.cfg.memorySize := by rwa [hi, hcfg, exec_cfg hstore]
  obtain ⟨w, hload, -, hloaded, -⟩ := loadRegistersFromIndex u x hrange'
  refine ⟨w, hload, fun j hj => ?_⟩
  rw [hloaded j, if_pos hj, hi, State.byteAt_congr hmem hcfg, hstored j hj]

/-- Settles O37: each writes `I` alone, whose value is the sum in the integers modulo 2^16. -/
theorem indexRegisterWrites : Obligations.IndexRegisterWrites :=
  fun s nnn x =>
    ⟨⟨_, rfl, rfl, toNat_zext16 nnn⟩, ⟨_, rfl, rfl, toNat_index_add_byte s.i (s.reg x)⟩,
      ⟨_, rfl, rfl, toNat_fontAddress s.cfg (s.reg x)⟩⟩

end Sys2Proof.Machine
end

section
/-! SUPPORT. The family of 46_timers_input.md: the tone told of a write of the sound timer (R278, R279), the key wait without
and with an active key (R242), the delay timer (R241, R243), and a run that the CPU spends in the key wait, in which nothing
but the timers moves (R276, R286). -/

namespace Sys2Proof.Machine

/-! ### The sound timer (R244, R278, R279) -/

/-- The three answers of R278, the timer as a number. -/
theorem toneEvent_eq (old new : Byte) :
    toneEvent old new =
      if old.toNat = 0 ∧ 0 < new.toNat then some .toneStart
      else if 0 < old.toNat ∧ new.toNat = 0 then some .toneStop else none := by
  have hzero : ∀ b : Byte, b = 0 ↔ b.toNat = 0 := fun b => BitVec.toNat_inj.symm
  simp only [toneEvent, ne_eq, hzero, Nat.pos_iff_ne_zero]

theorem toneEvent_of_start {old new : Byte} (hbefore : old.toNat = 0) (hafter : 0 < new.toNat) :
    toneEvent old new = some .toneStart := by
  rw [toneEvent_eq, if_pos ⟨hbefore, hafter⟩]

theorem toneEvent_of_stop {old new : Byte} (hbefore : 0 < old.toNat) (hafter : new.toNat = 0) :
    toneEvent old new = some .toneStop := by
  rw [toneEvent_eq, if_neg (by omega), if_pos ⟨hbefore, hafter⟩]

theorem toneEvent_of_same {old new : Byte} (h : old.toNat = 0 ↔ new.toNat = 0) : toneEvent old new = none := by
  rw [toneEvent_eq, if_neg (by omega), if_neg (by omega)]

/-- LD ST writes the timer with the tone transition of whatever event the write is. -/
theorem exec_ldSTVx_of_event {s : State} {x : Idx} {event : Option Output} (h : toneEvent s.st (s.reg x) = event) :
    exec (.ldSTVx x) s = .next { s with
      st := s.reg x, toneOn := toneAfter event s.toneOn, outputs := event.toList ++ s.outputs, pc := s.pc + 2 } := by
  subst h
  rfl

/-! ### The key wait (R242) -/

theorem activeKeys_eq_nil {s : State} (h : ∀ k : Idx, s.key[k] = false) : s.activeKeys = [] :=
  List.eq_nil_iff_forall_not_mem.2 fun k hk => Bool.false_ne_true ((h k).symm.trans ((mem_activeKeys s k).1 hk))

theorem exec_ldVxK_of_noKey {s : State} (h : ∀ k : Idx, s.key[k] = false) (x : Idx) : exec (.ldVxK x) s = .next s := by
  rw [exec, execLdVxK, activeKeys_eq_nil h]
  rfl

/-- The key of this draw is an entry of the list of active keys. -/
theorem exec_ldVxK_of_key {s : State} (h : ∃ k : Idx, s.key[k] = true) (x : Idx) :
    ∃ k : Idx, s.key[k] = true ∧ exec (.ldVxK x) s = .next (s.setKeyPressed x k) := by
  cases hkeys : s.activeKeys with
  | nil =>
    obtain ⟨k, hk⟩ := h
    have hmem := (mem_activeKeys s k).2 hk
    rw [hkeys] at hmem
    exact absurd hmem List.not_mem_nil
  | cons k ks =>
    have hlt : Config.keyChoice s.draws % (k :: ks).length < (k :: ks).length := Nat.mod_lt _ (Nat.succ_pos _)
    refine ⟨(k :: ks).getD (Config.keyChoice s.draws % (k :: ks).length) k, (mem_activeKeys s _).1 ?_, ?_⟩
    · rw [hkeys, List.getD_eq_getElem _ _ hlt]
      exact List.getElem_mem hlt
    · rw [exec, execLdVxK, hkeys]

theorem State.toNat_reg_setKeyPressed (x k : Idx) (s : State) (j : Idx) :
    ((s.setKeyPressed x k).reg j).toNat = if j = x then k.val else (s.reg j).toNat := by
  have hbyte : (BitVec.ofNat 8 k.val).toNat = k.val := by
    rw [BitVec.toNat_ofNat]
    omega
  have hreg := State.toNat_reg_setReg x (BitVec.ofNat 8 k.val) s j
  rwa [hbyte] at hreg

/-! ### A CPU step in the key wait (R242, R281) -/

/-- A fetched word that the decoder accepts runs as its instruction. -/
theorem cpuStep_of_decoded {s : State} {op : Word} {i : Instr} (hop : OpcodeAtPc s op) (hi : decode op s.mode = .ok i) :
    cpuStep s = exec i s := by
  rw [cpuStep, fetch_of_opcodeAtPc hop, orRaise_ok, runWord, hi]

/-- The CPU step of a state in a key wait with no key active changes nothing. -/
theorem cpuStep_holds {s : State} {op : Word} {x : Idx} (hop : OpcodeAtPc s op) (hi : decode op s.mode = .ok (.ldVxK x))
    (hkeys : ∀ k : Idx, s.key[k] = false) : cpuStep s = .next s :=
  (cpuStep_of_decoded hop hi).trans (exec_ldVxK_of_noKey hkeys x)

/-! ### Which steps move a key (R284) -/

theorem cpuStep_key {s t : State} (h : cpuStep s = .next t) : t.key = s.key := by
  obtain ⟨f, rfl⟩ | rfl | ⟨i, hi⟩ := cpuStep_cases h
  · exact State.faulted_key f s
  · exact State.advance_key s
  · exact (exec_frame hi).key

/-- Only the host's own step presses a key. -/
theorem agentStep_key_false {a : AgentStep} {s t : State} {k : Idx} (h : agentStep a s = .next t)
    (ha : a ≠ .hostKey k true) (hk : s.key[k] = false) : t.key[k] = false := by
  cases a with
  | cpu => rwa [cpuStep_key h]
  | timer | display | hostHalt => cases h; exact hk
  | hostKey j active =>
    cases h
    by_cases hj : j = k
    · subst hj
      cases active with
      | false => simp
      | true => exact absurd rfl ha
    · have hne : j.val ≠ k.val := fun hval => hj (Fin.ext hval)
      simpa [Vector.getElem_set, hne] using hk

/-! ### Runs under a schedule (R286) -/

/-- A property that every scheduled step keeps holds at the end of a run. -/
theorem runUnder_induction {P : State → Prop} {σ : Schedule} {s : State} (hs : P s)
    (hstep : ∀ m t u, P t → scheduledStep (σ m) t = .next u → P u) {n : Nat} {t : State}
    (h : runUnder σ s n = .next t) : P t := by
  induction n generalizing t with
  | zero => cases h; exact hs
  | succ n ih =>
    cases hrun : runUnder σ s n with
    | next u => rw [runUnder, hrun] at h; exact hstep n u t (ih hrun) h
    | fault f => rw [runUnder, hrun] at h; cases h
    | refused r => rw [runUnder, hrun] at h; cases h

theorem runUnder_succ {σ : Schedule} {s t : State} {n : Nat} (h : runUnder σ s n = .next t) :
    runUnder σ s (n + 1) = scheduledStep (σ n) t := by
  rw [runUnder, h]

theorem scheduledStep_of_running {s : State} (hl : LegalByR8 s.cfg) (hs : s.status = .running) (a : AgentStep) :
    scheduledStep a s = agentStep a { s with agenda := [] } :=
  step_of_running (s := { s with agenda := [a] }) hl hs

theorem runUnder_inv {σ : Schedule} {s t : State} {n : Nat} (hs : s.Inv) (h : runUnder σ s n = .next t) : t.Inv :=
  runUnder_induction hs (fun _ _ _ ht hu => stepKeepsInvariant _ _ ht.of_otherFields hu) h

theorem runUnder_key_false {σ : Schedule} {s t : State} {n : Nat} {k : Idx} (hσ : ∀ m, σ m ≠ .hostKey k true)
    (hk : s.key[k] = false) (h : runUnder σ s n = .next t) : t.key[k] = false :=
  runUnder_induction (P := fun t => t.key[k] = false) hk
    (fun m _ _ ht hu => have ⟨_, _, ha⟩ := step_cases hu; agentStep_key_false ha (hσ m) ht) h

/-! ### Runs in which nothing but the timers moves (R276, R280, R286) -/

/-- From `s` to `t` the timers ticked `n` times. Beside them only the tone, the keys and the model's own agenda and record of
calls may differ. -/
structure TickedOnly (s t : State) (n : Nat) : Prop where
  frame : t = { s with
    dt := t.dt, st := t.st, toneOn := t.toneOn, key := t.key, agenda := t.agenda, outputs := t.outputs }
  delay : t.dt.toNat = s.dt.toNat - n
  sound : t.st.toNat = s.st.toNat - n

theorem TickedOnly.refl (s : State) : TickedOnly s s 0 := ⟨rfl, rfl, rfl⟩

theorem TickedOnly.trans {s t u : State} {m n : Nat} (h : TickedOnly s t m) (h' : TickedOnly t u n) :
    TickedOnly s u (m + n) where
  frame := h'.frame.trans (by rw [h.frame])
  delay := by rw [h'.delay, h.delay, Nat.sub_sub]
  sound := by rw [h'.sound, h.sound, Nat.sub_sub]

/-- An agent's step with the CPU holding and no halt signal: the timer ticks, and no other agent touches the timers. -/
theorem agentStep_tickedOnly {a : AgentStep} {s : State} (hhalt : a ≠ .hostHalt)
    (hcpu : a = .cpu → cpuStep s = .next s) :
    ∃ t, agentStep a s = .next t ∧ TickedOnly s t (if a = .timer then 1 else 0) := by
  cases a with
  | cpu => exact ⟨s, hcpu rfl, TickedOnly.refl s⟩
  | timer => exact ⟨_, rfl, rfl, toNat_tick s.dt, toNat_tick s.st⟩
  | display | hostKey => exact ⟨_, rfl, rfl, rfl, rfl⟩
  | hostHalt => exact absurd rfl hhalt

/-- A run with the CPU holding and no halt signal: the timers tick once for each step of the timer. -/
theorem runUnder_tickedOnly {σ : Schedule} {s : State} {n : Nat} (hl : LegalByR8 s.cfg) (hs : s.status = .running)
    (hhalt : ∀ m < n, σ m ≠ .hostHalt)
    (hcpu : ∀ m < n, σ m = .cpu → ∀ t k, runUnder σ s m = .next t → TickedOnly s t k →
      cpuStep { t with agenda := [] } = .next { t with agenda := [] }) :
    ∃ t, runUnder σ s n = .next t ∧ TickedOnly s t (Nat.count (fun m => σ m = .timer) n) := by
  induction n with
  | zero => exact ⟨s, rfl, TickedOnly.refl s⟩
  | succ n ih =>
    obtain ⟨t, hrun, ht⟩ := ih (fun m hm => hhalt m (by omega)) fun m hm => hcpu m (by omega)
    have hl' : LegalByR8 t.cfg := by rw [ht.frame]; exact hl
    have hs' : t.status = .running := by rw [ht.frame]; exact hs
    obtain ⟨u, hu, htick⟩ := agentStep_tickedOnly (s := { t with agenda := [] }) (hhalt n (Nat.lt_succ_self n))
      fun hn => hcpu n (Nat.lt_succ_self n) hn t _ hrun ht
    refine ⟨u, ?_, ?_⟩
    · rw [runUnder_succ hrun, scheduledStep_of_running hl' hs', hu]
    · have hagenda : TickedOnly t { t with agenda := [] } 0 := ⟨rfl, rfl, rfl⟩
      have htotal := ht.trans (hagenda.trans htick)
      rwa [Nat.zero_add, ← Nat.count_succ] at htotal

/-- Under a weakly fair schedule the timer takes as many steps as one asks for. -/
theorem exists_le_count_timer {σ : Schedule} (hσ : WeaklyFair σ) (c : Nat) :
    ∃ N, ∀ n, N ≤ n → c ≤ Nat.count (fun m => σ m = .timer) n := by
  have hinf : {m | σ m = .timer}.Infinite := by
    refine Set.infinite_of_forall_exists_gt fun n => ?_
    obtain ⟨m, hle, hm⟩ := hσ .timer (by simp) (n + 1)
    exact ⟨m, hm, hle⟩
  obtain ⟨N, hN⟩ := Nat.surjective_count_of_infinite_setOfPred hinf c
  exact ⟨N, fun n hn => hN.symm.le.trans (Nat.count_monotone _ hn)⟩

/-- A byte is below 2^8, so 255 ticks run it out. -/
theorem byte_eq_zero_of_ticks {b b' : Byte} {n : Nat} (h : b'.toNat = b.toNat - n) (hn : 255 ≤ n) : b' = 0 := by
  have hzero : b'.toNat = 0 := by omega
  exact BitVec.eq_of_toNat_eq hzero

/-! ### The obligations of the family -/

/-- Settles O52: the CPU holds all along, so the run moves the timers alone, and the timer takes 255 steps at some point; the
invariant then says that the tone is off. -/
theorem timersRunOutDuringKeyWait : Obligations.TimersRunOutDuringKeyWait := by
  intro s σ op x hinv hl hs hop hi hkeys hfair hσ
  have hholds : ∀ m t k, runUnder σ s m = .next t → TickedOnly s t k →
      cpuStep { t with agenda := [] } = .next { t with agenda := [] } := by
    intro m t k hrun ht
    have hreleased : ∀ j : Idx, t.key[j] = false := fun j => runUnder_key_false (fun m => (hσ m).2 j) (hkeys j) hrun
    refine cpuStep_holds (op := op) (x := x) ?_ ?_ hreleased
    · rw [ht.frame]; exact hop
    · rw [ht.frame]; exact hi
  obtain ⟨N, hN⟩ := exists_le_count_timer hfair 255
  refine ⟨N, fun n hn => ?_⟩
  obtain ⟨t, hrun, ht⟩ := runUnder_tickedOnly (n := n) hl hs (fun m _ => (hσ m).1) fun m _ _ => hholds m
  have hst : t.st = 0 := byte_eq_zero_of_ticks ht.sound (hN n hn)
  have htone : t.toneOn = false := by rw [(runUnder_inv hinv hrun).toneFollowsSound, hst]; rfl
  refine ⟨t, hrun, byte_eq_zero_of_ticks ht.delay (hN n hn), hst, htone, ?_⟩
  rw [ht.frame]
  exact ⟨hs, rfl, rfl, rfl, rfl, rfl, rfl, rfl⟩

/-- Settles O45: a write that starts the tone, one that stops it, and one that leaves it. -/
theorem soundTimerWrite : Obligations.SoundTimerWrite :=
  fun _ _ =>
    ⟨fun hbefore hafter => exec_ldSTVx_of_event (toneEvent_of_start hbefore hafter),
      fun hbefore hafter => exec_ldSTVx_of_event (toneEvent_of_stop hbefore hafter),
      fun h => exec_ldSTVx_of_event (toneEvent_of_same h)⟩

/-- Settles O46: the list of active keys is empty, or the key of this draw is one of them. -/
theorem keyWaitHoldsOrStoresKey : Obligations.KeyWaitHoldsOrStoresKey := by
  refine fun s x => ⟨fun h => exec_ldVxK_of_noKey h x, fun h => ?_⟩
  obtain ⟨k, hk, hexec⟩ := exec_ldVxK_of_key h x
  exact ⟨_, k, hexec, hk, rfl, State.toNat_reg_setKeyPressed x k s⟩

/-- Settles O44: the load writes `V[x]` alone, the store `DT` alone. -/
theorem delayTimerAccess : Obligations.DelayTimerAccess :=
  fun s x => ⟨⟨_, rfl, rfl, State.reg_setReg x s.dt s⟩, rfl⟩

end Sys2Proof.Machine
end

section
/-! SUPPORT. The family of 60_exceptions.md: faults (R261, R267), the timers between instructions (R276, R280), the timer's
step (R276 to R278, R282), and the steps of the host (R284, R285). -/

namespace Sys2Proof.Machine

/-! ### Which instructions end a session (R261) -/

/-- An instruction that raises no fault leaves the session's status as it is. -/
theorem Effect.status_eq {i : Instr} {s t : State} (h : Effect i s t) : t.status = s.status := by
  cases i with
  | ret => obtain ⟨_, _, _, rfl⟩ := h; rfl
  | call => obtain ⟨_, rfl⟩ := h; rfl
  | addReg | subReg | shr | subn | shl => obtain ⟨_, _, rfl⟩ := h; rfl
  | drw => obtain rfl | ⟨_, rfl⟩ := h <;> rfl
  | skp | sknp | addIVx | ldFVx => obtain ⟨_, rfl⟩ := h; rfl
  | ldVxK => obtain rfl | ⟨_, rfl⟩ := h <;> rfl
  | ldBVx => obtain ⟨_, _, rfl⟩ := h; rfl
  | storeRegs | loadRegs => obtain ⟨_, _, _, rfl⟩ := h; rfl
  | _ => cases h; rfl

/-! ### The timer's step (R276 to R278, R282) -/

/-- The one tick that stops the tone takes the sound timer from 1 to 0. -/
theorem toneEvent_tick_of_one {b : Byte} (h : b.toNat = 1) : toneEvent b (tick b) = some .toneStop :=
  toneEvent_of_stop (by omega) (by rw [toNat_tick]; omega)

theorem toneEvent_tick_of_ne_one {b : Byte} (h : b.toNat ≠ 1) : toneEvent b (tick b) = none :=
  toneEvent_of_same (by rw [toNat_tick]; omega)

/-! ### How many timer steps a schedule takes (R286) -/

theorem count_map_range_timer (σ : Schedule) (n : Nat) :
    ((List.range n).map σ).count .timer = Nat.count (fun m => σ m = .timer) n := by
  rw [List.count, List.countP_map, Nat.count]
  rfl

/-! ### The obligations of the family -/

/-- Settles O51: with no step of the CPU and no halt signal, a run moves the timers alone. -/
theorem timersCountDownBetweenInstructions : Obligations.TimersCountDownBetweenInstructions := by
  intro s σ n hl hs hσ
  obtain ⟨t, hrun, ht⟩ := runUnder_tickedOnly hl hs (fun m hm => (hσ m hm).2)
    fun m hm hcpu => absurd hcpu (hσ m hm).1
  rw [count_map_range_timer]
  refine ⟨t, hrun, ht.delay, ht.sound, ?_⟩
  rw [ht.frame]
  exact ⟨rfl, rfl, rfl, rfl, rfl, rfl, rfl, rfl, hs, rfl⟩

/-- Settles O56: an instruction leaves the faulted state, or it has its effect and the session is still running. -/
theorem faultsArePrecise : Obligations.FaultsArePrecise := by
  intro i s t f hs h hf
  obtain ⟨g, rfl⟩ | he := exec_cases h
  · cases hf
    rfl
  · rw [he.status_eq, hs] at hf
    cases hf

/-- Settles O13: the fetched word decodes to the instruction, which runs with the turn off the agenda. -/
theorem stepRunsDecodedInstruction : Obligations.StepRunsDecodedInstruction :=
  fun _ _ _ hturn hop hi => (step_of_cpuTurn hturn).trans (cpuStep_of_decoded hop hi)

/-- Settles O47: the tick of the sound timer that reaches 0, and every other one. -/
theorem timerStepTicksBoth : Obligations.TimerStepTicksBoth := by
  intro s hturn
  refine ⟨_, step_of_turnOf hturn, rfl, toNat_tick s.dt, toNat_tick s.st, fun hone => ?_, fun hne => ?_⟩
  · simp [toneEvent_tick_of_one hone, toneAfter]
  · simp [toneEvent_tick_of_ne_one hne, toneAfter]

/-- Settles O49: a write of one entry of the key states. -/
theorem hostSetsOneKey : Obligations.HostSetsOneKey := by
  intro s k b hturn
  refine ⟨_, step_of_turnOf hturn, rfl, fun j => ?_⟩
  simp [Vector.getElem_set, Fin.ext_iff, eq_comm]

/-- Settles O50: the halt signal's own step, with its turn off the agenda. -/
theorem hostHaltEndsSession : Obligations.HostHaltEndsSession :=
  fun _ hturn => step_of_turnOf hturn

end Sys2Proof.Machine
end

section
/-! SUPPORT. The family of 70_reset_and_hazards.md: what memory holds before the ROM is loaded (R302, R306), the other reset values
(R303 to R311), and the ROM load (R307). -/

namespace Sys2Proof.Machine

/-! ### The memory before the ROM is loaded (R302, R306) -/

/-- The font of the model and the font of the statements are the same table, five bytes for each digit. -/
theorem getD_fontBytes : ∀ d < 16, ∀ k < 5, fontBytes.getD (5 * d + k) 0 = (hexFont.getD d []).getD k 0 := by decide

theorem resetByte_fontBase_add (cfg : Config) (n : Nat) :
    resetByte cfg (cfg.fontBaseAddress.toNat + n) = fontBytes.getD n 0 := by
  rw [resetByte, if_pos (Nat.le_add_right _ _), Nat.add_sub_cancel_left]

theorem resetByte_of_outside_font {cfg : Config} {a : Nat}
    (h : a < cfg.fontBaseAddress.toNat ∨ cfg.fontBaseAddress.toNat + 80 ≤ a) : resetByte cfg a = 0 := by
  obtain hbelow | habove := h
  · exact if_neg (Nat.not_le.2 hbelow)
  · obtain ⟨n, rfl⟩ := Nat.exists_eq_add_of_le habove
    have hlen : fontBytes.length = 80 := rfl
    rw [Nat.add_assoc, resetByte_fontBase_add, List.getD_eq_default _ _ (by omega)]

/-- Before the ROM is loaded, no address is listed. -/
theorem State.byteAt_start (cfg : Config) (a : Nat) : (State.start cfg).byteAt a = resetByte cfg a := rfl

/-- The font ends at or below the program start (R8). -/
theorem LegalByR8.font_below_program {cfg : Config} (h : LegalByR8 cfg) :
    cfg.fontBaseAddress.toNat + 80 ≤ cfg.programStartAddress.toNat := by
  obtain ⟨-, hfont, -⟩ := h
  exact hfont

/-! ### The other reset values (R303, R308, R309) -/

theorem State.reg_start (cfg : Config) (j : Idx) : (State.start cfg).reg j = 0 := Vector.getElem_replicate j.isLt

theorem State.key_start (cfg : Config) (k : Idx) : (State.start cfg).key[k] = false := Vector.getElem_replicate k.isLt

theorem row_of_mem_fb_start {cfg : Config} {row : List Bool} (h : row ∈ (State.start cfg).fb) :
    row.length = cfg.displayWidth ∧ ∀ p ∈ row, p = false := by
  rw [List.eq_of_mem_replicate h]
  exact ⟨List.length_replicate, fun _ => List.eq_of_mem_replicate⟩

/-! ### The ROM load (R307) -/

theorem startSession_of_overflow {cfg : Config} {rom : List Byte} (hl : LegalByR8 cfg)
    (hr : cfg.memorySize < cfg.programStartAddress.toNat + rom.length) :
    startSession cfg rom =
      .next { State.start cfg with status := .fatal (.outOfRange cfg.memorySize .romLoad), outputs := [] } :=
  (if_pos ((legalConfig_iff cfg).2 hl)).trans (if_neg (Nat.not_le.2 hr))

/-- The session that starts with a ROM that fits. -/
def State.loaded (cfg : Config) (rom : List Byte) : State :=
  (State.start cfg).putBytes cfg.programStartAddress.toNat rom

section
variable {cfg : Config} {rom : List Byte} (hr : cfg.programStartAddress.toNat + rom.length ≤ cfg.memorySize)
include hr

theorem startSession_eq_loaded (hl : LegalByR8 cfg) : startSession cfg rom = .next (State.loaded cfg rom) :=
  startSession_of_fits hl hr

theorem State.byteAt_loaded_inside {j : Nat} (hj : j < rom.length) :
    (State.loaded cfg rom).byteAt (cfg.programStartAddress.toNat + j) = rom.getD j 0 :=
  byteAt_putBytes_inside (State.start_inv cfg).memCanonical hr hj

theorem State.byteAt_loaded_outside {a : Nat}
    (ha : a < cfg.programStartAddress.toNat ∨ cfg.programStartAddress.toNat + rom.length ≤ a) :
    (State.loaded cfg rom).byteAt a = resetByte cfg a :=
  byteAt_putBytes_outside (State.start_inv cfg).memCanonical hr ha

/-- The font lies below the ROM, so loading the ROM leaves it in place. -/
theorem State.byteAt_loaded_font (hl : LegalByR8 cfg) {d k : Nat} (hd : d < 16) (hk : k < 5) :
    (State.loaded cfg rom).byteAt (cfg.fontBaseAddress.toNat + 5 * d + k) = (hexFont.getD d []).getD k 0 := by
  have hbelow := hl.font_below_program
  rw [State.byteAt_loaded_outside hr (.inl (by omega)), Nat.add_assoc, resetByte_fontBase_add, getD_fontBytes d hd k hk]

end

/-! ### The obligations of the family -/

/-- Settles O1: loading the ROM changes memory alone, and no byte outside the ROM. -/
theorem sessionStartState : Obligations.SessionStartState := by
  intro cfg rom hl hr
  refine ⟨State.loaded cfg rom, startSession_eq_loaded hr hl, State.reg_start cfg, rfl, rfl, rfl, rfl, rfl, rfl,
    List.length_replicate, fun _ => row_of_mem_fb_start, rfl, State.key_start cfg, rfl, rfl, rfl, rfl,
    fun d k hd hk => State.byteAt_loaded_font hr hl hd hk, fun a _ hfont hrom => ?_⟩
  rw [State.byteAt_loaded_outside hr hrom, resetByte_of_outside_font hfont]

/-- Settles O2: a failed load leaves the memory before the load, which is zero from the end of the font on. -/
theorem romLoadIsWholeOrNothing : Obligations.RomLoadIsWholeOrNothing := by
  refine fun cfg rom hl => ⟨fun hr => ?fits, fun hr => ?overflows⟩
  case fits =>
    exact ⟨State.loaded cfg rom, startSession_eq_loaded hr hl, rfl, fun _ => State.byteAt_loaded_inside hr⟩
  case overflows =>
    refine ⟨_, startSession_of_overflow hl hr, rfl, fun a ha => ?_⟩
    exact (State.byteAt_start cfg a).trans (resetByte_of_outside_font (.inr (hl.font_below_program.trans ha)))

end Sys2Proof.Machine
end
